-- ==== Sys2Proof/Word.lean ====
section
/-! DEFINITION. The bit-vector widths the spec names (00_scope.md R6, 10_state.md R10, R19, R20, 20_memory.md R40). -/

namespace Sys2Proof

/-- A byte is 8 bits (R6). -/
abbrev Byte := BitVec 8

/-- A 16-bit register: `LEN`, `CSUM`, `CRC` (R10, R18). -/
abbrev Half := BitVec 16

/-- A 17-bit number: the index of a host access (R40) and the register `FLEN` (R19). -/
abbrev Index := BitVec 17

/-- A 32-bit number: `TOTAL`, `SEQ`, a command word, and the data of a host access (R10, R26, R67). -/
abbrev Word := BitVec 32

end Sys2Proof
end

