-- ==== Sys2Proof/Config.lean ====
section
/-! DEFINITION. The two build parameters of the block (00_scope.md R4) and the model's one free value. -/

namespace Sys2Proof

/-- The byte order of the multi-byte frame fields, parameter `ENDIAN` (R4). -/
inductive Endian where
  | little
  | big
  deriving DecidableEq, Repr

/-- The parameters fixed when the block is built (R4). `MAXSEG` lies in 0..65535, which its 16 bits say by themselves.
Both are fields of `State` that no step changes, so a statement about every state is a statement about every build
(log entry 1). -/
structure Config where
  /-- `MAXSEG`, the maximum payload length in bytes. -/
  maxSeg : Half
  /-- `ENDIAN`, the byte order of `totalPackets`, `sequenceNumber`, `length` and `checksum` in a frame. -/
  endian : Endian
  deriving DecidableEq, Repr

/-- The build whose reset state is `State.reset`. `ENDIAN` is `little` because R4 fixes that when none is given;
`MAXSEG` = 16 is a DESIGN CHOICE, the value the vectors of 95_test_vectors.md assume (log entry 2). -/
def Config.build : Config where
  maxSeg := 16
  endian := .little

/-- The value an 'unspecified' 32-bit word takes: the data of a faulting read (20_memory.md R49, R50; U4) and `PEND`
after a reset (10_state.md R31; U5). It has no body, so nothing can be proved of it; its argument is the counter
`State.freeCount`, so two such words need not be equal (log entry 4). -/
opaque Config.freeWord : Nat → Word

end Sys2Proof
end

