-- ==== Sys2Proof/Syntax.lean ====
section
/-! DEFINITION. The commands of the block: one constructor per row of spec/opcode_table.json (30_encoding.md R68). -/

namespace Sys2Proof

/-- A command (00_scope.md R2). Only `CRCBYTE` has an operand in its word (30_encoding.md R69); every other operand is
implicit. -/
inductive Instr where
  /-- `NOP` (R132). -/
  | nop
  /-- `CRCINIT` (R106). -/
  | crcinit
  /-- `CRCBYTE imm8` (R107). -/
  | crcbyte (imm8 : Byte)
  /-- `CRCBUF` (R108). -/
  | crcbuf
  /-- `SEAL` (R109). -/
  | sealPdu
  /-- `ENCODE` (R81). -/
  | encode
  /-- `DECODE` (R84). -/
  | decode
  /-- `VALIDATE` (R110). -/
  | validate
  /-- `CLR` (R133). -/
  | clr
  deriving DecidableEq, Repr

end Sys2Proof
end

