-- ==== Sys2Proof/WellFormed.lean ====
section
/-! DEFINITION. Well-formed commands, and the spec's closed form of a legal command word (30_encoding.md R67, R69, R70). -/

namespace Sys2Proof

/-- `imm8` is an unsigned byte 0x00 to 0xFF (R69). `Byte` admits nothing else, so every term of `Instr` is well-formed;
the checks that can fail are those on a command word, below. -/
def Instr.wellFormed : Instr → Bool
  | .nop => true
  | .crcinit => true
  | .crcbyte imm8 => decide (imm8.toNat < 256)
  | .crcbuf => true
  | .sealPdu => true
  | .encode => true
  | .decode => true
  | .validate => true
  | .clr => true

/-- Bits 31:16 of a command word are zero (R67). -/
def upperBitsLegal (w : Word) : Bool := decide (w.toNat / 65536 = 0)

/-- The opcode, bits 7:0, is not reserved (R70: `w[7:0] > 0x08` is illegal). -/
def opcodeLegal (w : Word) : Bool := decide (w.toNat % 256 ≤ 8)

/-- Bits 15:8 are zero unless the opcode is that of `CRCBYTE` (R67, R70). -/
def operandLegal (w : Word) : Bool := decide (w.toNat % 256 = 2 ∨ w.toNat / 256 % 256 = 0)

/-- R70's closed form of a legal command word, on numbers; the decoder is written independently of it. -/
def legalWord (w : Word) : Bool := upperBitsLegal w && opcodeLegal w && operandLegal w

end Sys2Proof
end

