-- ==== Sys2Proof/Decode.lean ====
section
/-! DEFINITION. Decoding and encoding of command words (30_encoding.md R67 to R71). A command word is a number, not a
byte sequence, so it has no byte order (R67). -/

namespace Sys2Proof

/-- Why a command word is illegal (R70). All three reasons end in the one error `IllegalCommand` (42_control.md R134). -/
inductive IllegalReason where
  /-- `w[31:16] != 0`. -/
  | upperBitsNotZero
  /-- `w[7:0] > 0x08`: an opcode reserved for later versions. -/
  | reservedOpcode
  /-- `w[15:8] != 0` on a command without an operand. -/
  | operandNotZero
  deriving DecidableEq, Repr

/-- What a command word is: exactly one of the nine commands, or illegal (R70: the decoder is total). -/
inductive Decoded where
  | command (i : Instr)
  | illegal (why : IllegalReason)
  deriving DecidableEq, Repr

/-- Field `op`, bits 7:0 (R67). -/
def opField (w : Word) : Byte := w.extractLsb' 0 8

/-- Field `imm8`, bits 15:8 (R67, R69). -/
def imm8Field (w : Word) : Byte := w.extractLsb' 8 8

/-- Field `zero`, bits 31:16 (R67). -/
def zeroField (w : Word) : Half := w.extractLsb' 16 16

/-- A command without an operand: its `imm8` field must be 0 (R67). -/
def decodePlain (i : Instr) (imm8 : Byte) : Decoded :=
  if imm8 = 0 then .command i else .illegal .operandNotZero

/-- The opcode map of R68, by the `op` column. -/
def decodeOp (op : Byte) (imm8 : Byte) : Decoded :=
  match op.toNat with
  | 0 => decodePlain .nop imm8
  | 1 => decodePlain .crcinit imm8
  | 2 => .command (.crcbyte imm8)
  | 3 => decodePlain .crcbuf imm8
  | 4 => decodePlain .sealPdu imm8
  | 5 => decodePlain .encode imm8
  | 6 => decodePlain .decode imm8
  | 7 => decodePlain .validate imm8
  | 8 => decodePlain .clr imm8
  | _ => .illegal .reservedOpcode

/-- The decoder of command words (R68, R70). -/
def decode (w : Word) : Decoded :=
  if zeroField w = 0 then decodeOp (opField w) (imm8Field w) else .illegal .upperBitsNotZero

/-- The `op` column of R68. -/
def Instr.opcode : Instr → Byte
  | .nop => 0x00
  | .crcinit => 0x01
  | .crcbyte _ => 0x02
  | .crcbuf => 0x03
  | .sealPdu => 0x04
  | .encode => 0x05
  | .decode => 0x06
  | .validate => 0x07
  | .clr => 0x08

/-- The `imm8` field of a command's word: the operand of `CRCBYTE`, 0 for every other command (R67). -/
def Instr.imm8 : Instr → Byte
  | .crcbyte imm8 => imm8
  | .nop => 0
  | .crcinit => 0
  | .crcbuf => 0
  | .sealPdu => 0
  | .encode => 0
  | .decode => 0
  | .validate => 0
  | .clr => 0

/-- The word of a command: `zero`, `imm8` and `op` from the high end (R67). -/
def encode (i : Instr) : Word := (0 : Half) ++ i.imm8 ++ i.opcode

/-- One row of the opcode map (R68): a word `w` selects it iff `w and mask == match`. -/
structure OpcodeRow where
  mnemonic : String
  pattern : Word
  mask : Word
  /-- The command the row stands for, given the word's `imm8` field. -/
  instr : Byte → Instr

/-- The opcode map as R68 and spec/opcode_table.json write it. `decode` does not use it: that the two agree is a
statement. -/
def opcodeMap : List OpcodeRow :=
  [ { mnemonic := "NOP", pattern := 0x00000000, mask := 0xFFFFFFFF, instr := fun _ => .nop },
    { mnemonic := "CRCINIT", pattern := 0x00000001, mask := 0xFFFFFFFF, instr := fun _ => .crcinit },
    { mnemonic := "CRCBYTE", pattern := 0x00000002, mask := 0xFFFF00FF, instr := fun b => .crcbyte b },
    { mnemonic := "CRCBUF", pattern := 0x00000003, mask := 0xFFFFFFFF, instr := fun _ => .crcbuf },
    { mnemonic := "SEAL", pattern := 0x00000004, mask := 0xFFFFFFFF, instr := fun _ => .sealPdu },
    { mnemonic := "ENCODE", pattern := 0x00000005, mask := 0xFFFFFFFF, instr := fun _ => .encode },
    { mnemonic := "DECODE", pattern := 0x00000006, mask := 0xFFFFFFFF, instr := fun _ => .decode },
    { mnemonic := "VALIDATE", pattern := 0x00000007, mask := 0xFFFFFFFF, instr := fun _ => .validate },
    { mnemonic := "CLR", pattern := 0x00000008, mask := 0xFFFFFFFF, instr := fun _ => .clr } ]

/-- The command word that `nbits` bits of value `w` spell: every bit above them is 0. -/
def tableWord (nbits w : Nat) : Word := BitVec.ofNat 32 (w % 2 ^ nbits)

/-- The command the decoder reads from a word given as the opcode table numbers its bits; none where it is illegal or
where it would be longer than the 32 bits every command has (R67). -/
def decodeTableWord (nbits w : Nat) : Option Instr :=
  if nbits ≤ 32 then
    match decode (tableWord nbits w) with
    | .command i => some i
    | .illegal _ => none
  else none

end Sys2Proof
end

