-- ==== Sys2Proof/Machine/Literals.lean ====
section
/-! DEFINITION. The source's numeric literals and the constants derived from them, as named constants
(00_scope.md R5, 41_checksum.md R100, R103; 93_implementation_defined.md U17). -/

namespace Sys2Proof.Machine

/-- The polynomial x^16 + x^12 + x^5 + 1 without its x^16 term (R100). -/
def crcPoly : Half := 0x1021

/-- The initial register of every checksum (R103), and the reset value of `CRC` (R31). -/
def crcInit : Half := 0xFFFF

/-- `HDR`: bytes of the three header fields, 4 + 4 + 2 (R5). -/
def hdr : Nat := 10

/-- `TRL`: bytes of the checksum trailer (R5). -/
def trl : Nat := 2

/-- `OVH = HDR + TRL`: the fixed bytes of a frame (R5). -/
def ovh : Nat := hdr + trl

/-- The size of the buffer `PAY` in bytes (R29). -/
def paySize (c : Config) : Nat := c.maxSeg.toNat

/-- `FCAP = MAXSEG + 12`: the size of the buffer `FRM` in bytes (R5, R29). -/
def fcap (c : Config) : Nat := c.maxSeg.toNat + ovh

end Sys2Proof.Machine
end

