-- ==== Sys2Proof/Machine/State.lean ====
section
/-! DEFINITION. The state of the block (10_state.md R32), the host events it is driven by (20_memory.md R56), and its
values at reset (R31). -/

namespace Sys2Proof.Machine

/-- A byte buffer as plain data: (index, byte) pairs in one canonical form, indices strictly rising and no byte equal to
what an unlisted index reads as (Memory.wf in Machine/Ops.lean). -/
abbrev Memory := List Host.Cell

/-- One step somebody takes (R56): the host's two operations, the block's completion step, and reset. A list of them in
`State.script` says who moves next. -/
inductive Event where
  /-- `HostRead(space, index)`: a 2-bit space code and a 17-bit index (R40). -/
  | hostRead (space : BitVec 2) (index : Index)
  /-- `HostWrite(space, index, value)`. -/
  | hostWrite (space : BitVec 2) (index : Index) (value : Word)
  /-- The schedule gives the block its turn: the completion step, enabled iff `BUSY == 1` (42_control.md R130). -/
  | blockTurn
  /-- The reset input (70_reset_and_hazards.md R160). -/
  | reset
  deriving DecidableEq, Repr

/-- The state: the tuple of R32, the build parameters of R4, and the model's own record of the host side. -/
structure State where
  /-- The build parameters; no step changes them (R4, R21). -/
  cfg : Config
  /-- PDU field `totalPackets`, 32 uninterpreted bits (R11). -/
  total : Word
  /-- PDU field `sequenceNumber` (R12). -/
  seq : Word
  /-- PDU field `length`; any value, also above `MAXSEG` (R13). -/
  len : Half
  /-- PDU field `checksum` (R14). -/
  csum : Half
  /-- The frame length in bytes (R19). -/
  flen : Index
  /-- The checksum engine's register (R18). -/
  crc : Half
  /-- The error code of the last completed command (R25). -/
  errcode : Byte
  /-- `STATUS.BUSY` (R23). -/
  busy : Bool
  /-- `STATUS.DONE` (R23). -/
  done : Bool
  /-- `STATUS.VALID` (R23). -/
  valid : Bool
  /-- `STATUS.TRAIL` (R23). -/
  trail : Bool
  /-- `STATUS.HSFAULT`, sticky (R24). -/
  hsfault : Bool
  /-- The command word of the pending command, meaningful only while `BUSY == 1` (R30). -/
  pend : Word
  /-- The payload buffer `PAY`, `MAXSEG` bytes (R29). -/
  pay : Memory
  /-- The frame buffer `FRM`, `FCAP` bytes (R29). -/
  frm : Memory
  /-- MODEL'S OWN: the steps still to be taken, first one first; when it is empty the block moves (log entry 5). -/
  script : List Event
  /-- MODEL'S OWN: the value the last host read returned (log entry 6). -/
  rdata : Word
  /-- MODEL'S OWN: how many free words have been drawn from `Config.freeWord` (log entry 4). -/
  freeCount : Nat
  deriving DecidableEq, Repr

/-- Why the machine stops. -/
inductive Fault where
  /-- Raised by `blockTurn` when the block is to move while `BUSY == 0`: "If `BUSY == 0` the block has no step. A run is
  over, from the block's side" (R56). Safe: there is no step to take; no command and no host access raises it. -/
  | blockHasNoStep
  deriving DecidableEq, Repr

/-- Why an instruction has no meaning in this model. -/
inductive Refusal where
  /-- Raised by an arm of `exec` for a command that has no meaning yet; no arm raises it in this model. Safe. -/
  | notModelled (mnemonic : String)
  deriving DecidableEq, Repr

/-- The outcome of one step of this machine. -/
abbrev Result := Host.Outcome State Fault Refusal

/-- The state right after power-up of build `c` (R31): the buffers and `PEND` hold whatever they hold (R161), every
register and flag its reset value. -/
def State.powerUp (c : Config) (pay frm : Memory) (pend : Word) : State where
  cfg := c
  total := 0
  seq := 0
  len := 0
  csum := 0
  flen := 0
  crc := crcInit
  errcode := 0
  busy := false
  done := false
  valid := false
  trail := false
  hsfault := false
  pend := pend
  pay := pay
  frm := frm
  script := []
  rdata := 0
  freeCount := 0

/-- The machine right after reset: the build `Config.build` with buffers that list nothing and `PEND` = 0
(DESIGN CHOICE, log entry 3: the spec leaves both unspecified, and statements about a power-up state are made for every
content). -/
def State.reset : State := State.powerUp Config.build [] [] 0

end Sys2Proof.Machine
end

