-- ==== Sys2Proof/Machine/Ops.lean ====
section
/-! DEFINITION. The shared operations: the byte buffers (20_memory.md R44, R48), the common completion of every command
`finish` (42_control.md R131) and `raise` (00_scope.md R9), which is this block's only kind of exception: it has no
traps, no handler and no return (60_exceptions.md R146, R149). -/

namespace Sys2Proof.Machine

/-! ### The byte buffers -/

/-- What an unlisted index of a buffer reads as (log entry 3). The spec gives no content before a write (R161: any value,
fixed until written); every content a buffer can have is some canonical memory. -/
def Memory.unlisted : Byte := 0

/-- The canonical form: indices strictly rising, no byte equal to what an unlisted index reads as. -/
def Memory.wf : Memory → Bool
  | [] => true
  | [c] => decide (c.2 ≠ Memory.unlisted)
  | c :: d :: m => decide (c.2 ≠ Memory.unlisted) && decide (c.1 < d.1) && Memory.wf (d :: m)

/-- Every listed index lies below `size` (20_memory.md R40: indices 0..size-1). -/
def Memory.within (size : Nat) (m : Memory) : Bool := m.all fun c => decide (c.1 < size)

/-- The byte at index `i`. -/
def Memory.get : Memory → Nat → Byte
  | [], _ => Memory.unlisted
  | c :: m, i => if c.1 = i then c.2 else Memory.get m i

/-- A byte put in front of a memory whose indices are higher, unless it is what an unlisted index reads as. -/
def Memory.cons (i : Nat) (b : Byte) (m : Memory) : Memory :=
  if b = Memory.unlisted then m else (i, b) :: m

/-- Store byte `b` at index `i`, keeping the canonical form. -/
def Memory.set : Memory → Nat → Byte → Memory
  | [], i, b => Memory.cons i b []
  | c :: m, i, b =>
    if i < c.1 then Memory.cons i b (c :: m)
    else if i = c.1 then Memory.cons i b m
    else c :: Memory.set m i b

/-- `MemRead(space:i, n)`: the bytes at `i`, ..., `i+n-1`, lowest index first (R44). -/
def memRead (m : Memory) (i : Nat) : Nat → List Byte
  | 0 => []
  | n + 1 => m.get i :: memRead m (i + 1) n

/-- `MemWrite(space:i, n, b)` with `n` the number of bytes of `b` (R44). -/
def memWrite (m : Memory) (i : Nat) : List Byte → Memory
  | [] => m
  | b :: bs => memWrite (m.set i b) (i + 1) bs

/-! ### Ending a command -/

/-- The errors a command can end with (60_exceptions.md R140). -/
inductive CommandError where
  /-- Raised by `DECODE` (R141). -/
  | malformedPdu
  /-- Raised by `VALIDATE` (R142). -/
  | checksumMismatch
  /-- Raised by `SEAL`, `ENCODE`, `VALIDATE`, `DECODE`, `CRCBUF` (R143). -/
  | lengthRange
  /-- Raised by an illegal command word (R144). -/
  | illegalCommand
  deriving DecidableEq, Repr

/-- The codes of R140; 0 is success. -/
def errCode : CommandError → Byte
  | .malformedPdu => 1
  | .checksumMismatch => 2
  | .lengthRange => 3
  | .illegalCommand => 4

/-- `finish(code, valid, trail)` (R131): the last action of every command and the only writer of the result flags. -/
def finish (code : Byte) (valid trail : Bool) (s : State) : State :=
  { s with errcode := code, valid := valid, trail := trail, busy := false, done := true }

/-- `raise <Name>` is `finish(code(<Name>), 0, 0)` (R131). -/
def raise (e : CommandError) (s : State) : State := finish (errCode e) false false s

/-- A command that ends with code 0 and no result flag. -/
def succeed (s : State) : State := finish 0 false false s

end Sys2Proof.Machine
end

