-- ==== Sys2Proof/Machine/Operands.lean ====
section
/-! DEFINITION. The operands of the commands: the serialised fields (30_encoding.md R62 to R64), the held PDU
(10_state.md R10, R15), the frame (R19) and the pure codec functions over them (40_codec.md R80, R82). -/

namespace Sys2Proof.Machine

/-! ### Byte order -/

/-- `ser_N(v)` with N = `n`: the `n` bytes of `v` in `ENDIAN` order (R62). -/
def ser {w : Nat} (n : Nat) (e : Endian) (v : BitVec w) : List Byte :=
  match e with
  | .little => (List.range n).map fun k => v.extractLsb' (8 * k) 8
  | .big => (List.range n).map fun k => v.extractLsb' (8 * (n - 1 - k)) 8

/-- The number whose bytes, least significant first, are `b` (R63, the little sum). -/
def natOfBytes : List Byte → Nat
  | [] => 0
  | b :: bs => b.toNat + 256 * natOfBytes bs

/-- `deser_N(b)` as a number, N the number of bytes of `b` (R63). -/
def deserNat (e : Endian) (b : List Byte) : Nat :=
  match e with
  | .little => natOfBytes b
  | .big => natOfBytes b.reverse

/-- `deser_N(b)` as a value of `w` = 8N bits; never sign-extended (R63). -/
def deser (w : Nat) (e : Endian) (b : List Byte) : BitVec w := BitVec.ofNat w (deserNat e b)

/-! ### The PDU and its frame -/

/-- A structured PDU (R10). -/
structure Pdu where
  total : Word
  seq : Word
  len : Half
  payload : List Byte
  csum : Half
  deriving DecidableEq, Repr

/-- The invariant `payload.len() == length` of a PDU (R15). -/
def Pdu.wf (p : Pdu) : Bool := decide (p.payload.length = p.len.toNat)

/-- `hdr_bytes(t, s, l)`: the bytes at offsets 0 to 9 of a frame (R64). -/
def hdrBytes (e : Endian) (t s : Word) (l : Half) : List Byte := ser 4 e t ++ ser 4 e s ++ ser 2 e l

/-- `encode(t, s, l, p, c)` (R80): header, payload, checksum; it computes and checks nothing. -/
def encodePdu (e : Endian) (p : Pdu) : List Byte := hdrBytes e p.total p.seq p.len ++ p.payload ++ ser 2 e p.csum

/-- The bytes `f[a .. b)` (R8). -/
def slice (f : List Byte) (a b : Nat) : List Byte := (f.drop a).take (b - a)

/-- `decode(f)` (R82): the PDU and the flag `trail`, or `MalformedPdu`. The sums are on natural numbers and never wrap
(R83). -/
def decodeFrame (e : Endian) (f : List Byte) : Except CommandError (Pdu × Bool) :=
  let n := f.length
  if n < ovh then .error .malformedPdu
  else
    let l : Half := deser 16 e (slice f 8 10)
    if l.toNat + ovh > n then .error .malformedPdu
    else
      .ok ({ total := deser 32 e (slice f 0 4),
             seq := deser 32 e (slice f 4 8),
             len := l,
             payload := slice f hdr (hdr + l.toNat),
             csum := deser 16 e (slice f (hdr + l.toNat) (ovh + l.toNat)) },
           decide (n > l.toNat + ovh))

/-! ### Implicit operands -/

/-- The payload of the held PDU, `PAY[0..LEN)` (R15). -/
def payload (s : State) : List Byte := memRead s.pay 0 s.len.toNat

/-- The held PDU (R10, R15). -/
def heldPdu (s : State) : Pdu :=
  { total := s.total, seq := s.seq, len := s.len, payload := payload s, csum := s.csum }

/-- The frame, `FRM[0..FLEN)` (R19). -/
def heldFrame (s : State) : List Byte := memRead s.frm 0 s.flen.toNat

/-- The bytes the checksum of the held PDU covers, `10 + LEN` of them (R104). -/
def coveredBytes (s : State) : List Byte := hdrBytes s.cfg.endian s.total s.seq s.len ++ payload s

/-- `LEN <= MAXSEG`: `SEAL`, `ENCODE` and `VALIDATE` stay inside `PAY` (R143). -/
def lenInRange (s : State) : Bool := decide (s.len.toNat ≤ paySize s.cfg)

/-- `FLEN <= FCAP`: `DECODE` and `CRCBUF` stay inside `FRM` (R143). -/
def flenInRange (s : State) : Bool := decide (s.flen.toNat ≤ fcap s.cfg)

/-- The PDU registers loaded with `p`; bytes of `PAY` beyond its payload keep their values (R84). -/
def loadPdu (p : Pdu) (s : State) : State :=
  { s with total := p.total, seq := p.seq, len := p.len, csum := p.csum, pay := memWrite s.pay 0 p.payload }

end Sys2Proof.Machine
end

