-- ==== Sys2Proof/Machine/Flags.lean ====
section
/-! DEFINITION. The words the host reads in place of flags: `STATUS` and `CFG` (10_state.md R21, R23). -/

namespace Sys2Proof.Machine

/-- `STATUS.ERR` is 1 iff `ERRCODE != 0`; it is not separate state (R23). -/
def errFlag (s : State) : Bool := decide (s.errcode ≠ 0)

/-- A flag as a bit of a register. -/
def flagBit (b : Bool) : Nat := if b then 1 else 0

/-- The word of `STATUS`: BUSY 0, DONE 1, ERR 2, VALID 3, TRAIL 4, HSFAULT 5, bits 31:6 zero (R23). -/
def statusWord (s : State) : Word :=
  BitVec.ofNat 32 (flagBit s.busy + 2 * flagBit s.done + 4 * flagBit (errFlag s) + 8 * flagBit s.valid
    + 16 * flagBit s.trail + 32 * flagBit s.hsfault)

/-- Bit 16 of `CFG`: 0 little, 1 big (R21). -/
def endianBit : Endian → Nat
  | .little => 0
  | .big => 1

/-- The word of `CFG`: bits 15:0 `MAXSEG`, bit 16 `ENDIAN`, bits 31:17 zero (R21). -/
def cfgWord (c : Config) : Word := BitVec.ofNat 32 (c.maxSeg.toNat + 65536 * endianBit c.endian)

end Sys2Proof.Machine
end

