-- ==== Sys2Proof/Machine/Crc.lean ====
section
/-! DEFINITION. The CRC functions (41_checksum.md R100 to R105) and the two equivalent forms the spec gives of the byte
step (R112, R113). -/

namespace Sys2Proof.Machine

/-- `crc_bit(r)`: one bit of polynomial division (R100). -/
def crcBit (r : Half) : Half := if r.getLsbD 15 then (r <<< 1) ^^^ crcPoly else r <<< 1

/-- `n` steps of `crc_bit`. -/
def crcBits : Nat → Half → Half
  | 0, r => r
  | n + 1, r => crcBits n (crcBit r)

/-- A byte in the high half of a register, zeros in the low: `{b, 0x00}` (R101). -/
def highByte (b : Byte) : Half := b ++ (0 : Byte)

/-- `crc_byte(r, b)`: the register after one message byte, most significant bit first (R101). -/
def crcByte (r : Half) (b : Byte) : Half := crcBits 8 (r ^^^ highByte b)

/-- `crc_bytes(r, m)`: the register after the bytes in order (R102). -/
def crcBytes (r : Half) (m : List Byte) : Half := m.foldl crcByte r

/-- `checksum16(m)` (R103): neither inverted nor reflected. -/
def checksum16 (m : List Byte) : Half := crcBytes crcInit m

/-- `pdu_checksum()`: over the serialised header and payload, never the checksum field (R104). -/
def pduChecksum (s : State) : Half := checksum16 (coveredBytes s)

/-- `pdu_valid()`: an empty PDU unconditionally, any other iff its checksum matches (R105). -/
def pduValid (s : State) : Bool := decide (s.len = 0 ∨ (s.len ≠ 0 ∧ pduChecksum s = s.csum))

/-- The byte-at-a-time closed form of `crc_byte` (R112). -/
def crcByteClosed (r : Half) (b : Byte) : Half :=
  let t : Byte := r.extractLsb' 8 8 ^^^ b
  let u : Half := (t ^^^ (t >>> 4)).zeroExtend 16
  (r <<< 8) ^^^ (u <<< 12) ^^^ (u <<< 5) ^^^ u

/-- The table `T[i] = crc_byte(0x0000, i)` (R113). -/
def crcTable (i : Byte) : Half := crcByte 0 i

/-- The table form of `crc_byte` (R113). -/
def crcByteTable (r : Half) (b : Byte) : Half := (r <<< 8) ^^^ crcTable (r.extractLsb' 8 8 ^^^ b)

end Sys2Proof.Machine
end

