-- ==== Sys2Proof/Machine/Checksum.lean ====
section
/-! DEFINITION. The checksum commands `CRCINIT`, `CRCBYTE`, `CRCBUF`, `SEAL`, `VALIDATE` (41_checksum.md R106 to R110). -/

namespace Sys2Proof.Machine

/-- `CRCINIT` (R106). -/
def execCrcinit (s : State) : Result := .next (succeed { s with crc := crcInit })

/-- `CRCBYTE imm8` (R107): it continues from whatever `CRC` holds. -/
def execCrcbyte (imm8 : Byte) (s : State) : Result := .next (succeed { s with crc := crcByte s.crc imm8 })

/-- `CRCBUF` (R108): the raw checksum of the frame buffer, restarted from the initial register. -/
def execCrcbuf (s : State) : Result :=
  if flenInRange s then .next (succeed { s with crc := checksum16 (heldFrame s) })
  else .next (raise .lengthRange s)

/-- `SEAL` (R109): the held PDU's checksum into `CSUM` and `CRC`. -/
def execSeal (s : State) : Result :=
  if lenInRange s then .next (succeed { s with csum := pduChecksum s, crc := pduChecksum s })
  else .next (raise .lengthRange s)

/-- `VALIDATE` (R110): `LEN == 0` is tested before everything (60_exceptions.md R147); the CRC is not run then. -/
def execValidate (s : State) : Result :=
  if s.len = 0 then .next (finish 0 true false s)
  else if lenInRange s then
    if pduChecksum s = s.csum then .next (finish 0 true false { s with crc := pduChecksum s })
    else .next (raise .checksumMismatch { s with crc := pduChecksum s })
  else .next (raise .lengthRange s)

end Sys2Proof.Machine
end

