-- ==== Sys2Proof/Machine/Codec.lean ====
section
/-! DEFINITION. The codec commands `ENCODE` and `DECODE` (40_codec.md R81, R84). -/

namespace Sys2Proof.Machine

/-- `ENCODE` (R81): the held PDU into `FRM[0..12+LEN)`, its size into `FLEN`; the checksum is written as it stands. -/
def execEncode (s : State) : Result :=
  if lenInRange s then
    .next (succeed { s with
      frm := memWrite s.frm 0 (encodePdu s.cfg.endian (heldPdu s)),
      flen := BitVec.ofNat 17 (ovh + s.len.toNat) })
  else .next (raise .lengthRange s)

/-- `DECODE` (R84): `FRM[0..FLEN)` into the PDU registers; on an error they keep the previous PDU. -/
def execDecode (s : State) : Result :=
  if flenInRange s then
    match decodeFrame s.cfg.endian (heldFrame s) with
    | .ok (p, trail) => .next (finish 0 false trail (loadPdu p s))
    | .error e => .next (raise e s)
  else .next (raise .lengthRange s)

end Sys2Proof.Machine
end

