-- ==== Sys2Proof/Machine/Control.lean ====
section
/-! DEFINITION. The control commands `NOP` and `CLR`, and the illegal command word (42_control.md R132 to R134). -/

namespace Sys2Proof.Machine

/-- `NOP` (R132): only the result flags. -/
def execNop (s : State) : Result := .next (succeed s)

/-- `CLR` (R133): the registers back to their reset values; the buffers and `HSFAULT` are kept. -/
def execClr (s : State) : Result :=
  .next (succeed { s with total := 0, seq := 0, len := 0, csum := 0, flen := 0, crc := crcInit })

/-- An illegal command word (R134): `IllegalCommand`, and nothing but the result flags changes. It is no row of the
opcode table and no constructor of `Instr`; the completion step takes it. -/
def execIllegal (s : State) : Result := .next (raise .illegalCommand s)

end Sys2Proof.Machine
end

