-- ==== Sys2Proof/Machine/Dispatch.lean ====
section
/-! DEFINITION. `Exec` on a legal command (42_control.md R137): one arm per command. -/

namespace Sys2Proof.Machine

/-- The meaning of a command, performed by its completion step (R130, R137). -/
def exec (i : Instr) (s : State) : Host.Outcome State Fault Refusal :=
  match i with
  | .nop => Sys2Proof.Machine.execNop s
  | .crcinit => Sys2Proof.Machine.execCrcinit s
  | .crcbyte imm8 => Sys2Proof.Machine.execCrcbyte imm8 s
  | .crcbuf => Sys2Proof.Machine.execCrcbuf s
  | .sealPdu => Sys2Proof.Machine.execSeal s
  | .encode => Sys2Proof.Machine.execEncode s
  | .decode => Sys2Proof.Machine.execDecode s
  | .validate => Sys2Proof.Machine.execValidate s
  | .clr => Sys2Proof.Machine.execClr s

end Sys2Proof.Machine
end

