-- ==== Sys2Proof/Machine/HostPort.lean ====
section
/-! DEFINITION. The host's side of the block: the address map (20_memory.md R40), the register map (10_state.md R20),
`HostRead` and `HostWrite` (R45 to R52), command issue (R51) and reset (70_reset_and_hazards.md R160). -/

namespace Sys2Proof.Machine

/-! ### The address map -/

/-- The ten registers of the REG space (R20). -/
inductive Reg where
  | cfg
  | cmd
  | status
  | errcode
  | total
  | seq
  | len
  | csum
  | flen
  | crc
  deriving DecidableEq, Repr

/-- The number of a register (R20). -/
def regNumber : Reg → Nat
  | .cfg => 0
  | .cmd => 1
  | .status => 2
  | .errcode => 3
  | .total => 4
  | .seq => 5
  | .len => 6
  | .csum => 7
  | .flen => 8
  | .crc => 9

/-- The register of a number; numbers 10 and above are reserved (R28). -/
def regOfNumber : Nat → Option Reg
  | 0 => some .cfg
  | 1 => some .cmd
  | 2 => some .status
  | 3 => some .errcode
  | 4 => some .total
  | 5 => some .seq
  | 6 => some .len
  | 7 => some .csum
  | 8 => some .flen
  | 9 => some .crc
  | _ => none

/-- What a space code and an index name (R40). -/
inductive Location where
  | reg (r : Reg)
  | pay (i : Nat)
  | frm (i : Nat)
  deriving DecidableEq, Repr

/-- The address map (R40); none where an access faults (R49: space code 3, a reserved register number, an index outside
the buffer). -/
def locate (c : Config) (space : BitVec 2) (index : Index) : Option Location :=
  match space.toNat with
  | 0 => (regOfNumber index.toNat).map .reg
  | 1 => if index.toNat < paySize c then some (.pay index.toNat) else none
  | 2 => if index.toNat < fcap c then some (.frm index.toNat) else none
  | _ => none

/-! ### Reading -/

/-- The 32-bit value a register reads as, narrower ones zero-extended (R26, R45). -/
def readReg (r : Reg) (s : State) : Word :=
  match r with
  | .cfg => cfgWord s.cfg
  | .cmd => 0
  | .status => statusWord s
  | .errcode => s.errcode.zeroExtend 32
  | .total => s.total
  | .seq => s.seq
  | .len => s.len.zeroExtend 32
  | .csum => s.csum.zeroExtend 32
  | .flen => s.flen.zeroExtend 32
  | .crc => s.crc.zeroExtend 32

/-- The 32-bit value a location reads as; a buffer byte is zero-extended (R43, R47). -/
def readLocation (l : Location) (s : State) : Word :=
  match l with
  | .reg r => readReg r s
  | .pay i => (s.pay.get i).zeroExtend 32
  | .frm i => (s.frm.get i).zeroExtend 32

/-- What the host may read while a command is pending: `CFG`, `STATUS`, `ERRCODE` (R50). -/
def readableWhileBusy : Location → Bool
  | .reg .cfg => true
  | .reg .status => true
  | .reg .errcode => true
  | .reg .cmd => false
  | .reg .total => false
  | .reg .seq => false
  | .reg .len => false
  | .reg .csum => false
  | .reg .flen => false
  | .reg .crc => false
  | .pay _ => false
  | .frm _ => false

/-- A read that works: it changes nothing but the value handed to the host (R52). -/
def answerRead (v : Word) (s : State) : State := { s with rdata := v }

/-- A faulting read: `HSFAULT <- 1` and an unspecified value, drawn afresh (R49, R50). -/
def faultRead (s : State) : State :=
  { s with hsfault := true, rdata := Config.freeWord s.freeCount, freeCount := s.freeCount + 1 }

/-- `HostRead(space, index)` (R45, R47, R49, R50). -/
def hostRead (space : BitVec 2) (index : Index) (s : State) : State :=
  match locate s.cfg space index with
  | none => faultRead s
  | some l => if s.busy && !readableWhileBusy l then faultRead s else answerRead (readLocation l s) s

/-! ### Writing -/

/-- Command issue (R51): the word is latched, nothing else; every word is accepted. -/
def issue (w : Word) (s : State) : State := { s with pend := w, busy := true, done := false }

/-- A write to a register: the low bits into a writable one (R26, R46), nothing into a read-only one (R27). -/
def writeReg (r : Reg) (v : Word) (s : State) : State :=
  match r with
  | .cfg => s
  | .cmd => issue v s
  | .status => s
  | .errcode => s
  | .total => { s with total := v }
  | .seq => { s with seq := v }
  | .len => { s with len := v.extractLsb' 0 16 }
  | .csum => { s with csum := v.extractLsb' 0 16 }
  | .flen => { s with flen := v.extractLsb' 0 17 }
  | .crc => s

/-- A write to a location; a buffer takes the low byte (R43, R48). -/
def writeLocation (l : Location) (v : Word) (s : State) : State :=
  match l with
  | .reg r => writeReg r v s
  | .pay i => { s with pay := s.pay.set i (v.extractLsb' 0 8) }
  | .frm i => { s with frm := s.frm.set i (v.extractLsb' 0 8) }

/-- A faulting write is dropped: only `HSFAULT <- 1` (R49, R50). -/
def dropWrite (s : State) : State := { s with hsfault := true }

/-- `HostWrite(space, index, value)` (R46, R48 to R51). -/
def hostWrite (space : BitVec 2) (index : Index) (v : Word) (s : State) : State :=
  match locate s.cfg space index with
  | none => dropWrite s
  | some l => if s.busy then dropWrite s else writeLocation l v s

/-! ### Reset -/

/-- The reset step (R160): every register and flag to its reset value, a pending command cancelled (R162), the buffers
untouched. `PEND` is unspecified after it (R31), so it takes a free word. -/
def applyReset (s : State) : State :=
  { s with
    total := 0, seq := 0, len := 0, csum := 0, flen := 0, crc := crcInit, errcode := 0,
    busy := false, done := false, valid := false, trail := false, hsfault := false,
    pend := Config.freeWord s.freeCount, freeCount := s.freeCount + 1 }

end Sys2Proof.Machine
end

