-- ==== Sys2Proof/Machine/Lifecycle.lean ====
section
/-! DEFINITION. The completion step of a pending command (42_control.md R130, R137) and the step an event stands for
(20_memory.md R56). -/

namespace Sys2Proof.Machine

/-- `Exec(w)` (R137): the command the word encodes, or `IllegalCommand`. -/
def execWord (w : Word) (s : State) : Result :=
  match Sys2Proof.decode w with
  | .command i => exec i s
  | .illegal _ => execIllegal s

/-- The block's turn: the completion step, enabled iff `BUSY == 1` (R130); otherwise the block has no step (R56). -/
def blockTurn (s : State) : Result :=
  if s.busy then execWord s.pend s else .fault .blockHasNoStep

/-- The step of one event (R56). -/
def takeEvent (e : Event) (s : State) : Result :=
  match e with
  | .hostRead space index => .next (hostRead space index s)
  | .hostWrite space index v => .next (hostWrite space index v s)
  | .blockTurn => blockTurn s
  | .reset => .next (applyReset s)

/-- The state in which the block's turn comes next and the pending command is the word `w`: what the host's issue of `w`
(R51) leaves, with the completion scheduled first. -/
def placeCommand (w : Word) (s : State) : State :=
  { issue w s with script := .blockTurn :: s.script }

end Sys2Proof.Machine
end

