-- ==== Sys2Proof/Machine/Step.lean ====
section
/-! DEFINITION. One step of the machine (20_memory.md R53, R56), and the placing of a command for the very next step. -/

namespace Sys2Proof.Machine

/-- The first event of the script is taken. With no event left the block moves: a pending command is eventually
completed (70_reset_and_hazards.md R173). -/
def step (s : State) : Host.Outcome State Fault Refusal :=
  match s.script with
  | [] => blockTurn s
  | e :: es => takeEvent e { s with script := es }

/-- The state in which the very next step runs the command whose table bits are `w`. The block fetches nothing
(10_state.md R17): a command stands in `PEND` with `BUSY` set, put there by the host's `CMD` write (R51), and the block
takes its turn. -/
def State.withFetchWord (s : State) (nbits w : Nat) : State := placeCommand (Sys2Proof.tableWord nbits w) s

end Sys2Proof.Machine
end

