-- ==== Sys2Proof/Machine/Script.lean ====
section
/-! DEFINITION. The host-script notation of 30_encoding.md R72 and R73, as the host accesses its lines stand for. -/

namespace Sys2Proof.Machine

/-- A line of a host script (R72, R73). Two things the notation leaves open are written out: how often `WAIT` polls
before the command completes, and where the schedule places a completion (42_control.md R130). -/
inductive Line where
  /-- `WR <reg>, <value>`. -/
  | wr (r : Reg) (v : Word)
  /-- `RD <reg>`. -/
  | rd (r : Reg)
  /-- `WRB PAY[<i>], <byte>`. -/
  | wrbPay (i : Index) (b : Byte)
  /-- `WRB FRM[<i>], <byte>`. -/
  | wrbFrm (i : Index) (b : Byte)
  /-- `RDB PAY[<i>]`. -/
  | rdbPay (i : Index)
  /-- `RDB FRM[<i>]`. -/
  | rdbFrm (i : Index)
  /-- `CMD <mnemonic>`, with the byte of `CMD CRCBYTE <byte>` in the command. -/
  | cmd (i : Instr)
  /-- `WAIT` on a pending command: `polls` reads of `STATUS` while it is pending, its completion, one read of `STATUS`. -/
  | wait (polls : Nat)
  /-- `WAIT` on a command that has completed already: one read of `STATUS`. -/
  | waitDone
  /-- `LOADPAY b0 ... bk`. -/
  | loadPay (bs : List Byte)
  /-- `LOADFRM b0 ... bk`. -/
  | loadFrm (bs : List Byte)
  /-- `FRAME`: `CMD SEAL; WAIT; CMD ENCODE; WAIT`. -/
  | frame (sealPolls encodePolls : Nat)
  /-- `RUN <mnemonic>`: `CMD <mnemonic>; WAIT`. -/
  | run (i : Instr) (polls : Nat)
  /-- Not a line of the host: the schedule takes the completion here. -/
  | complete
  deriving DecidableEq, Repr

/-- The space code of the REG space (R40). -/
def spaceReg : BitVec 2 := 0

/-- The space code of the buffer `PAY` (R40). -/
def spacePay : BitVec 2 := 1

/-- The space code of the buffer `FRM` (R40). -/
def spaceFrm : BitVec 2 := 2

/-- `HostRead(REG, no(<reg>))` (R72). -/
def readRegEvent (r : Reg) : Event := .hostRead spaceReg (BitVec.ofNat 17 (regNumber r))

/-- `HostWrite(REG, no(<reg>), value)` (R72). -/
def writeRegEvent (r : Reg) (v : Word) : Event := .hostWrite spaceReg (BitVec.ofNat 17 (regNumber r)) v

/-- `HostWrite` of a byte to a buffer (R72). -/
def writeByteEvent (space : BitVec 2) (i : Index) (b : Byte) : Event := .hostWrite space i (b.zeroExtend 32)

/-- The bytes of `LOADPAY` and `LOADFRM` written one by one from index `i` on (R73). -/
def loadEvents (space : BitVec 2) (i : Nat) : List Byte → List Event
  | [] => []
  | b :: bs => writeByteEvent space (BitVec.ofNat 17 i) b :: loadEvents space (i + 1) bs

/-- `CMD <mnemonic>`: the command's word written to `CMD` (R72). -/
def cmdEvent (i : Instr) : Event := writeRegEvent .cmd (Sys2Proof.encode i)

/-- `WAIT` on a pending command (R73). -/
def waitEvents (polls : Nat) : List Event :=
  List.replicate polls (readRegEvent .status) ++ [.blockTurn, readRegEvent .status]

/-- What a line expands to (R72, R73). -/
def lineEvents : Line → List Event
  | .wr r v => [writeRegEvent r v]
  | .rd r => [readRegEvent r]
  | .wrbPay i b => [writeByteEvent spacePay i b]
  | .wrbFrm i b => [writeByteEvent spaceFrm i b]
  | .rdbPay i => [.hostRead spacePay i]
  | .rdbFrm i => [.hostRead spaceFrm i]
  | .cmd i => [cmdEvent i]
  | .wait polls => waitEvents polls
  | .waitDone => [readRegEvent .status]
  | .loadPay bs => loadEvents spacePay 0 bs
  | .loadFrm bs => loadEvents spaceFrm 0 bs ++ [writeRegEvent .flen (BitVec.ofNat 32 bs.length)]
  | .frame sealPolls encodePolls => cmdEvent .sealPdu :: waitEvents sealPolls ++ cmdEvent .encode :: waitEvents encodePolls
  | .run i polls => cmdEvent i :: waitEvents polls
  | .complete => [.blockTurn]

/-- A host script: its lines' accesses in order (R72). -/
def scriptEvents (lines : List Line) : List Event := lines.flatMap lineEvents

end Sys2Proof.Machine
end

