-- ==== Sys2Proof/Safety.lean ====
section
/-! DEFINITION. What claims are stated in: the state invariant, clean runs, and runs of several steps. -/

namespace Sys2Proof.Machine

/-- The invariant every step keeps. -/
structure State.Inv (s : State) : Prop where
  /-- `PAY` is in canonical form. -/
  pay_wf : Memory.wf s.pay = true
  /-- `FRM` is in canonical form. -/
  frm_wf : Memory.wf s.frm = true
  /-- No byte of `PAY` lies outside its `MAXSEG` bytes (20_memory.md R40). -/
  pay_within : Memory.within (paySize s.cfg) s.pay = true
  /-- No byte of `FRM` lies outside its `FCAP` bytes (R40). -/
  frm_within : Memory.within (fcap s.cfg) s.frm = true
  /-- `BUSY` and `DONE` are never both 1 (10_state.md R23). -/
  not_busy_and_done : ¬ (s.busy = true ∧ s.done = true)
  /-- Error codes 5 to 255 are never produced (60_exceptions.md R140). -/
  errcode_known : s.errcode.toNat ≤ 4
  /-- `VALID` comes only with success and without `TRAIL` (R23: the last command was `VALIDATE`). -/
  valid_alone : s.valid = true → s.errcode = 0 ∧ s.trail = false
  /-- `TRAIL` comes only with success (R23: the last command was a `DECODE` that succeeded). -/
  trail_success : s.trail = true → s.errcode = 0
  /-- A result is shown only once a command has been issued since reset (R31, R51). -/
  result_of_command : s.errcode ≠ 0 ∨ s.valid = true ∨ s.trail = true → s.busy = true ∨ s.done = true

/-- A run that has not gone wrong: no handshake fault (60_exceptions.md R145). -/
def State.Clean (s : State) : Prop := s.hsfault = false

/-- `k` steps of the machine. -/
def runSteps (k : Nat) (s : State) : Result := Host.Core.run Sys2Proof.core k s

/-- The commands of a list completed one after another on a state, each by its meaning, stopping at a stop. -/
def execAll : List Instr → State → Result
  | [], s => .next s
  | i :: is, s =>
    match exec i s with
    | .next t => execAll is t
    | .fault r => .fault r
    | .refused r => .refused r

/-- The host is the one who moves: a read or a write. -/
def Event.isHostAccess : Event → Bool
  | .hostRead _ _ => true
  | .hostWrite _ _ _ => true
  | .blockTurn => false
  | .reset => false

/-- The block's turn comes next, and `rest` is the script after it: the schedule says so, or nothing else is left. -/
def State.BlockMoves (s : State) (rest : List Event) : Prop :=
  s.script = .blockTurn :: rest ∨ (s.script = [] ∧ rest = [])

/-- A message changed by an error pattern of the same length, byte by byte (41_checksum.md R115). -/
def xorBytes (a b : List Byte) : List Byte := List.zipWith (fun x y => x ^^^ y) a b

/-- Bit `j` of a message in the order the CRC divides it: byte `j / 8`, most significant bit first (41_checksum.md R101). -/
def messageBit (m : List Byte) (j : Nat) : Bool := (m[j / 8]?.getD 0).getLsbD (7 - j % 8)

/-- The states agree on everything a command reads or writes: all but `HSFAULT` and the model's record of the host side. -/
def State.SameBlock (s t : State) : Prop :=
  t = { s with hsfault := t.hsfault, script := t.script, rdata := t.rdata, freeCount := t.freeCount }

end Sys2Proof.Machine
end

