-- ==== Sys2Proof/Certificates/Slice0/Obligations.lean ====
section
/-! DEFINITION. The statements for the provers. Each docstring names the rule of spec/ it formalises. -/

open Sys2Proof Sys2Proof.Machine

/-! ### Command words -/

/-- 30_encoding.md R67, R68, R70: a command has exactly one word, and a legal word is the word of the command it
decodes to. -/
def Obligations.DecodeAndEncodeAgree : Prop :=
  (∀ i : Instr, i.wellFormed = true → decode (encode i) = .command i) ∧
  (∀ (w : Word) (i : Instr), decode w = .command i → encode i = w)

/-- R68: a word selects a row of the opcode map iff `(w and mask) == match`, and at most one row matches any word. -/
def Obligations.DecoderFollowsOpcodeMap : Prop :=
  (∀ row ∈ opcodeMap, ∀ w : Word,
    (w &&& row.mask = row.pattern ↔ decode w = .command (row.instr (imm8Field w)))) ∧
  (∀ w : Word, (opcodeMap.filter fun row => decide (w &&& row.mask = row.pattern)).length ≤ 1) ∧
  opcodeMap.map (fun row => (row.mnemonic, row.pattern, row.mask, row.instr 0x5A)) =
    [("NOP", 0x00000000, 0xFFFFFFFF, .nop), ("CRCINIT", 0x00000001, 0xFFFFFFFF, .crcinit),
     ("CRCBYTE", 0x00000002, 0xFFFF00FF, .crcbyte 0x5A), ("CRCBUF", 0x00000003, 0xFFFFFFFF, .crcbuf),
     ("SEAL", 0x00000004, 0xFFFFFFFF, .sealPdu), ("ENCODE", 0x00000005, 0xFFFFFFFF, .encode),
     ("DECODE", 0x00000006, 0xFFFFFFFF, .decode), ("VALIDATE", 0x00000007, 0xFFFFFFFF, .validate),
     ("CLR", 0x00000008, 0xFFFFFFFF, .clr)]

/-- R70: which words are illegal, in both of the rule's forms; an illegal word is accepted at issue like any other and
completes with `IllegalCommand` and no other effect. -/
def Obligations.IllegalWordsAreExactlyThese : Prop :=
  (∀ w : Word, (∃ why, decode w = .illegal why) ↔ ∀ row ∈ opcodeMap, w &&& row.mask ≠ row.pattern) ∧
  (∀ w : Word, (∃ why, decode w = .illegal why) ↔
    (w.toNat / 65536 ≠ 0 ∨ w.toNat % 256 > 8 ∨ (w.toNat % 256 ≠ 2 ∧ w.toNat / 256 % 256 ≠ 0))) ∧
  (∀ (w : Word) (why : IllegalReason) (s : State), decode w = .illegal why → s.busy = false →
    hostWrite spaceReg 1 w s = { s with pend := w, busy := true, done := false } ∧
    blockTurn (hostWrite spaceReg 1 w s) =
      .next { s with pend := w, errcode := 4, valid := false, trail := false, busy := false, done := true })

/-- 95_test_vectors.md V35: command words and their fate. -/
def Obligations.SampleWordsDecode : Prop :=
  decode 0x00000000 = .command .nop ∧ decode 0x00000001 = .command .crcinit ∧
  decode 0x00000002 = .command (.crcbyte 0x00) ∧ decode 0x0000FF02 = .command (.crcbyte 0xFF) ∧
  decode 0x00000102 = .command (.crcbyte 0x01) ∧ decode 0x00000003 = .command .crcbuf ∧
  decode 0x00000004 = .command .sealPdu ∧ decode 0x00000005 = .command .encode ∧
  decode 0x00000006 = .command .decode ∧ decode 0x00000007 = .command .validate ∧
  decode 0x00000008 = .command .clr ∧ decode 0x00000101 = .illegal .operandNotZero ∧
  decode 0x00000108 = .illegal .operandNotZero ∧ decode 0x00010002 = .illegal .upperBitsNotZero ∧
  decode 0x80000000 = .illegal .upperBitsNotZero ∧ decode 0x00000009 = .illegal .reservedOpcode ∧
  decode 0x000000FF = .illegal .reservedOpcode ∧ decode 0xFFFFFFFF = .illegal .upperBitsNotZero

/-! ### The step -/

/-- 42_control.md R130, R137: when the block moves on a pending legal word, the step is the meaning of the command the
word decodes to. When the block moves is said by `State.script`, the model's own (log entry 5). -/
def Obligations.StepRunsTheDecodedCommand : Prop :=
  ∀ (s : State) (rest : List Event) (i : Instr), s.busy = true → s.BlockMoves rest → decode s.pend = .command i →
    step s = exec i { s with script := rest }

/-- 42_control.md R134, 60_exceptions.md R144: an illegal word completes with code 4 and nothing but the result flags
changes; the rule's own examples. When the block moves is said by `State.script`, the model's own, and with nothing left in
it the block moves (log entry 5). -/
def Obligations.IllegalWordCompletesWithCodeFour : Prop :=
  (∀ (s : State) (rest : List Event) (why : IllegalReason), s.busy = true → s.BlockMoves rest →
    decode s.pend = .illegal why →
    step s = .next { s with script := rest, errcode := 4, valid := false, trail := false, busy := false, done := true }) ∧
  (∀ s : State, s.errcode = 4 → errFlag s = true) ∧
  decode 0x00000102 = .command (.crcbyte 0x01) ∧ decode 0x00000101 = .illegal .operandNotZero ∧
  decode 0x00010000 = .illegal .upperBitsNotZero ∧ decode 0x00000009 = .illegal .reservedOpcode ∧
  decode 0x000000FF = .illegal .reservedOpcode ∧ decode 0x00000000 = .command .nop

/-- 20_memory.md R56: a step is a host read, a host write, a reset, or, while `BUSY == 1`, the completion. Which of them
comes next is said by `State.script`, the model's own (log entry 5). -/
def Obligations.StepIsOneOfTheFourSteps : Prop :=
  ∀ s t : State, step s = .next t ↔
    (∃ space index rest, s.script = .hostRead space index :: rest ∧ t = hostRead space index { s with script := rest }) ∨
    (∃ space index v rest, s.script = .hostWrite space index v :: rest ∧
      t = hostWrite space index v { s with script := rest }) ∨
    (∃ rest, s.script = .reset :: rest ∧ t = applyReset { s with script := rest }) ∨
    (∃ rest, s.BlockMoves rest ∧ s.busy = true ∧ execWord s.pend { s with script := rest } = .next t)

/-- R56 "If `BUSY == 0` the block has no step": the machine stops there and nowhere else, whatever the state. That it stops
with a fault is the model's choice (log entry 7). -/
def Obligations.StepStopsOnlyWhenTheBlockIsIdle : Prop :=
  ∀ s : State,
    ((∃ rest, s.BlockMoves rest) ∧ s.busy = false → step s = .fault .blockHasNoStep) ∧
    (¬ ((∃ rest, s.BlockMoves rest) ∧ s.busy = false) → ∃ t, step s = .next t)

/-- R131: every command completes in every state; the completion clears `BUSY`, sets `DONE`, keeps `HSFAULT` and `PEND`;
a command that raises `MalformedPdu`, `LengthRange` or `IllegalCommand` changes nothing but the five result fields. -/
def Obligations.EveryCommandFinishes : Prop :=
  (∀ (i : Instr) (s : State), ∃ t, exec i s = .next t ∧ t.busy = false ∧ t.done = true ∧
    t.hsfault = s.hsfault ∧ t.pend = s.pend ∧
    (t.errcode = 1 ∨ t.errcode = 3 →
      t = { s with errcode := t.errcode, valid := false, trail := false, busy := false, done := true })) ∧
  (∀ s : State, execIllegal s =
    .next { s with errcode := 4, valid := false, trail := false, busy := false, done := true })

/-- 60_exceptions.md R146: an error other than `ChecksumMismatch` changes no register and no byte; `ChecksumMismatch`
changes only `CRC`. -/
def Obligations.ErrorsArePrecise : Prop :=
  ∀ (i : Instr) (s t : State), exec i s = .next t → t.errcode ≠ 0 →
    t = { s with crc := t.crc, errcode := t.errcode, valid := false, trail := false, busy := false, done := true } ∧
    (t.errcode ≠ 2 → t.crc = s.crc)

/-- R140: the codes, and which command can end with which; 5 to 255 are never produced. -/
def Obligations.ErrorCodesBelongToTheirCommands : Prop :=
  errCode .malformedPdu = 1 ∧ errCode .checksumMismatch = 2 ∧ errCode .lengthRange = 3 ∧ errCode .illegalCommand = 4 ∧
  (∀ (i : Instr) (s t : State), exec i s = .next t →
    t.errcode.toNat ≤ 3 ∧ (t.errcode = 1 → i = .decode) ∧ (t.errcode = 2 → i = .validate) ∧
    (t.errcode = 3 → i ∈ [Instr.sealPdu, .encode, .validate, .decode, .crcbuf])) ∧
  (∀ (w : Word) (s t : State), execWord w s = .next t →
    (t.errcode = 4 ↔ ∃ why, decode w = .illegal why) ∧ t.errcode.toNat ≤ 4)

/-- 10_state.md R23 (VALID, TRAIL): VALID is 1 only after a `VALIDATE` of a valid PDU, TRAIL only after a `DECODE` that
succeeded on a frame longer than 12 + length. That they are 1 then is 41_checksum.md R110 and 40_codec.md R84. -/
def Obligations.ResultFlagsBelongToTheirCommands : Prop :=
  ∀ (i : Instr) (s t : State), exec i s = .next t →
    (t.valid = true ↔ i = .validate ∧ pduValid s = true ∧ t.errcode = 0) ∧
    (t.trail = true ↔ i = .decode ∧ t.errcode = 0 ∧ t.len.toNat + 12 < s.flen.toNat)

/-! ### The control commands and the raw checksum -/

/-- R132: `NOP` writes the result flags and nothing else. -/
def Obligations.NopWritesOnlyResultFlags : Prop :=
  encode .nop = 0x00000000 ∧
  ∀ s : State, exec .nop s =
    .next { s with errcode := 0, valid := false, trail := false, busy := false, done := true }

/-- R133: `CLR` puts the registers back; the result differs from a reset state only in `DONE`, `HSFAULT`, the buffers,
and the unspecified `PEND` (and the model's record of the host side). -/
def Obligations.ClrRestoresTheRegisters : Prop :=
  encode .clr = 0x00000008 ∧
  ∀ s : State, ∃ t, exec .clr s = .next t ∧
    t = { s with total := 0, seq := 0, len := 0, csum := 0, flen := 0, crc := 0xFFFF,
                 errcode := 0, valid := false, trail := false, busy := false, done := true } ∧
    t = { State.powerUp s.cfg s.pay s.frm s.pend with
          done := true, hsfault := s.hsfault, script := s.script, rdata := s.rdata, freeCount := s.freeCount } ∧
    pduValid t = true

/-- R106: `CRCINIT` sets `CRC` to 0xFFFF. -/
def Obligations.CrcinitStartsAChecksum : Prop :=
  encode .crcinit = 0x00000001 ∧
  ∀ s : State, exec .crcinit s =
    .next { s with crc := 0xFFFF, errcode := 0, valid := false, trail := false, busy := false, done := true }

/-- R107: `CRCBYTE` feeds one byte to whatever `CRC` holds; `CRCINIT` and then the bytes of a message give its checksum,
one byte at a time and over the whole message; the rule's examples. -/
def Obligations.CrcbyteFeedsOneByte : Prop :=
  (∀ imm8 : Byte, encode (.crcbyte imm8) = BitVec.ofNat 32 (2 + 256 * imm8.toNat)) ∧
  (∀ (imm8 : Byte) (s : State), exec (.crcbyte imm8) s =
    .next { s with crc := crcByte s.crc imm8,
                   errcode := 0, valid := false, trail := false, busy := false, done := true }) ∧
  (∀ (m : List Byte) (b : Byte), crcByte (checksum16 m) b = checksum16 (m ++ [b])) ∧
  (∀ (m : List Byte) (s : State), ∃ t, execAll (.crcinit :: m.map Instr.crcbyte) s = .next t ∧
    t = { s with crc := checksum16 m, errcode := 0, valid := false, trail := false, busy := false, done := true }) ∧
  crcByte 0x0000 0x00 = 0x0000 ∧ crcByte 0xFFFF 0xFF = 0xFF00 ∧ crcByte 0xFFFF 0x41 = 0xB915 ∧
  checksum16 [0x41, 0x42, 0x43, 0x44] = 0xBFFA

/-- R108: `CRCBUF` is the raw checksum of `FRM[0..FLEN)`, restarted from 0xFFFF, or `LengthRange`. -/
def Obligations.CrcbufIsTheRawChecksum : Prop :=
  encode .crcbuf = 0x00000003 ∧
  (∀ s : State, s.flen.toNat ≤ fcap s.cfg → exec .crcbuf s =
    .next { s with crc := checksum16 (memRead s.frm 0 s.flen.toNat),
                   errcode := 0, valid := false, trail := false, busy := false, done := true }) ∧
  (∀ s : State, s.flen.toNat > fcap s.cfg → exec .crcbuf s =
    .next { s with errcode := 3, valid := false, trail := false, busy := false, done := true }) ∧
  (∀ m : Memory, checksum16 (memRead m 0 0) = 0xFFFF) ∧
  checksum16 [0x31, 0x32, 0x33, 0x34, 0x35, 0x36, 0x37, 0x38, 0x39] = 0x29B1

/-! ### The commands on the held PDU -/

/-- R109 (with R104): `SEAL` puts the checksum of the header and payload bytes into `CSUM` and `CRC`, after which the PDU
is valid; or `LengthRange`. -/
def Obligations.SealStoresThePduChecksum : Prop :=
  encode .sealPdu = 0x00000004 ∧
  (∀ s : State, s.len.toNat ≤ s.cfg.maxSeg.toNat → ∃ t, exec .sealPdu s = .next t ∧
    t = { s with csum := checksum16 (hdrBytes s.cfg.endian s.total s.seq s.len ++ memRead s.pay 0 s.len.toNat),
                 crc := checksum16 (hdrBytes s.cfg.endian s.total s.seq s.len ++ memRead s.pay 0 s.len.toNat),
                 errcode := 0, valid := false, trail := false, busy := false, done := true } ∧
    pduValid t = true) ∧
  (∀ s : State, s.len.toNat > s.cfg.maxSeg.toNat → exec .sealPdu s =
    .next { s with errcode := 3, valid := false, trail := false, busy := false, done := true }) ∧
  checksum16 (hdrBytes .little 10 1 4 ++ [0x41, 0x42, 0x43, 0x44]) = 0xE61D ∧
  checksum16 (hdrBytes .big 10 1 4 ++ [0x41, 0x42, 0x43, 0x44]) = 0xA10A

/-- R105, R110: `VALIDATE` evaluates the predicate; an empty PDU is valid unconditionally and leaves `CRC` alone. -/
def Obligations.ValidateEvaluatesThePredicate : Prop :=
  encode .validate = 0x00000007 ∧
  (∀ s : State, pduValid s = true ↔
    s.len = 0 ∨ (s.len ≠ 0 ∧
      checksum16 (hdrBytes s.cfg.endian s.total s.seq s.len ++ memRead s.pay 0 s.len.toNat) = s.csum)) ∧
  (∀ s : State, s.len = 0 → exec .validate s =
    .next { s with errcode := 0, valid := true, trail := false, busy := false, done := true }) ∧
  (∀ s : State, s.len ≠ 0 → s.len.toNat > s.cfg.maxSeg.toNat → exec .validate s =
    .next { s with errcode := 3, valid := false, trail := false, busy := false, done := true }) ∧
  (∀ s : State, s.len ≠ 0 → s.len.toNat ≤ s.cfg.maxSeg.toNat → pduChecksum s = s.csum → exec .validate s =
    .next { s with crc := pduChecksum s, errcode := 0, valid := true, trail := false, busy := false, done := true }) ∧
  (∀ s : State, s.len ≠ 0 → s.len.toNat ≤ s.cfg.maxSeg.toNat → pduChecksum s ≠ s.csum → exec .validate s =
    .next { s with crc := pduChecksum s, errcode := 2, valid := false, trail := false, busy := false, done := true }) ∧
  (∀ s t : State, exec .validate s = .next t → (t.valid = true ↔ pduValid s = true ∧ t.errcode ≠ 3)) ∧
  checksum16 (hdrBytes .little 10 1 4 ++ [0xBE, 0x42, 0x43, 0x44]) = 0xADBE

/-- R81: `ENCODE` writes the frame of the held PDU to `FRM[0..12+LEN)` and its size to `FLEN`, and changes nothing else
but the result flags; or `LengthRange`. -/
def Obligations.EncodeSerialisesTheHeldPdu : Prop :=
  encode .encode = 0x00000005 ∧
  (∀ s : State, Memory.wf s.frm = true → s.len.toNat ≤ s.cfg.maxSeg.toNat → ∃ t, exec .encode s = .next t ∧
    t = { s with frm := t.frm, flen := t.flen,
                 errcode := 0, valid := false, trail := false, busy := false, done := true } ∧
    t.flen.toNat = 12 + s.len.toNat ∧
    memRead t.frm 0 (12 + s.len.toNat) =
      hdrBytes s.cfg.endian s.total s.seq s.len ++ memRead s.pay 0 s.len.toNat ++ ser 2 s.cfg.endian s.csum ∧
    (∀ a, 12 + s.len.toNat ≤ a → Memory.get t.frm a = Memory.get s.frm a) ∧
    (s.len.toNat = s.cfg.maxSeg.toNat → t.flen.toNat = fcap s.cfg)) ∧
  (∀ s : State, s.len.toNat > s.cfg.maxSeg.toNat → exec .encode s =
    .next { s with errcode := 3, valid := false, trail := false, busy := false, done := true }) ∧
  hdrBytes .little 10 1 4 ++ [0x41, 0x42, 0x43, 0x44] ++ ser 2 .little (0xE61D : Half) =
    [0x0A, 0x00, 0x00, 0x00, 0x01, 0x00, 0x00, 0x00, 0x04, 0x00, 0x41, 0x42, 0x43, 0x44, 0x1D, 0xE6]

/-- R84 (with R82, R83): `DECODE` of a frame whose declared length fits loads the five fields, writes only `PAY[0..l)`,
and reports excess bytes by `TRAIL`; the declared length then fits `PAY`. On `FLEN > FCAP` it ends with `LengthRange`, on
a frame too short or too long in its declared length with `MalformedPdu`, and changes nothing else. -/
def Obligations.DecodeLoadsTheFrame : Prop :=
  encode .decode = 0x00000006 ∧
  (∀ (s : State) (l : Nat), Memory.wf s.pay = true → s.flen.toNat ≤ fcap s.cfg → 12 ≤ s.flen.toNat →
    l = deserNat s.cfg.endian (memRead s.frm 8 2) → l + 12 ≤ s.flen.toNat →
    l ≤ s.cfg.maxSeg.toNat ∧ ∃ t, exec .decode s = .next t ∧
      t = { s with total := t.total, seq := t.seq, len := t.len, csum := t.csum, pay := t.pay,
                   errcode := 0, valid := false, trail := decide (l + 12 < s.flen.toNat), busy := false, done := true } ∧
      t.total.toNat = deserNat s.cfg.endian (memRead s.frm 0 4) ∧
      t.seq.toNat = deserNat s.cfg.endian (memRead s.frm 4 4) ∧
      t.len.toNat = l ∧
      t.csum.toNat = deserNat s.cfg.endian (memRead s.frm (10 + l) 2) ∧
      memRead t.pay 0 l = memRead s.frm 10 l ∧
      (∀ a, l ≤ a → Memory.get t.pay a = Memory.get s.pay a)) ∧
  (∀ s : State, s.flen.toNat > fcap s.cfg → exec .decode s =
    .next { s with errcode := 3, valid := false, trail := false, busy := false, done := true }) ∧
  (∀ s : State, s.flen.toNat ≤ fcap s.cfg →
    (s.flen.toNat < 12 ∨ deserNat s.cfg.endian (memRead s.frm 8 2) + 12 > s.flen.toNat) → exec .decode s =
      .next { s with errcode := 1, valid := false, trail := false, busy := false, done := true }) ∧
  decodeFrame .little
      [0x0A, 0x00, 0x00, 0x00, 0x01, 0x00, 0x00, 0x00, 0x04, 0x00, 0x41, 0x42, 0x43, 0x44, 0x1D, 0xE6] =
    .ok ({ total := 10, seq := 1, len := 4, payload := [0x41, 0x42, 0x43, 0x44], csum := 0xE61D }, false)

/-- R141 (with R82, R83): `MalformedPdu` is raised by `DECODE`, and only by it, exactly on a frame shorter than 12 bytes
or whose declared length does not fit; the sum does not wrap; nothing but the result flags changes. -/
def Obligations.DecodeRejectsMalformedFrames : Prop :=
  (∀ s : State, s.flen.toNat ≤ fcap s.cfg →
    (s.flen.toNat < 12 ∨ deserNat s.cfg.endian (memRead s.frm 8 2) + 12 > s.flen.toNat) → exec .decode s =
      .next { s with errcode := 1, valid := false, trail := false, busy := false, done := true }) ∧
  (∀ (i : Instr) (s t : State), exec i s = .next t → t.errcode = 1 →
    i = .decode ∧
    (s.flen.toNat < 12 ∨ deserNat s.cfg.endian (memRead s.frm 8 2) + 12 > s.flen.toNat))

/-- R142: `ChecksumMismatch` is raised by `VALIDATE`, and only by it, exactly when a non-empty PDU in range does not have
the stored checksum; `CRC` then holds the recomputed one. -/
def Obligations.MismatchIsRaisedByValidateOnly : Prop :=
  ∀ (i : Instr) (s t : State), exec i s = .next t →
    (t.errcode = 2 ↔ i = .validate ∧ s.len ≠ 0 ∧ s.len.toNat ≤ s.cfg.maxSeg.toNat ∧ pduChecksum s ≠ s.csum) ∧
    (t.errcode = 2 → t = { s with crc := pduChecksum s, errcode := 2, valid := false, trail := false,
                                  busy := false, done := true })

/-- R143: `LengthRange` on `LEN > MAXSEG` (`SEAL`, `ENCODE`, `VALIDATE`) and on `FLEN > FCAP` (`DECODE`, `CRCBUF`), and on
nothing else; only the result flags change. -/
def Obligations.LengthRangeRefusesLongLengths : Prop :=
  (∀ (i : Instr) (s : State),
    (i ∈ [Instr.sealPdu, .encode, .validate] ∧ s.len.toNat > s.cfg.maxSeg.toNat) ∨
    (i ∈ [Instr.decode, .crcbuf] ∧ s.flen.toNat > fcap s.cfg) →
    exec i s = .next { s with errcode := 3, valid := false, trail := false, busy := false, done := true }) ∧
  (∀ (i : Instr) (s t : State), exec i s = .next t → t.errcode = 3 →
    (i ∈ [Instr.sealPdu, .encode, .validate] ∧ s.len.toNat > s.cfg.maxSeg.toNat) ∨
    (i ∈ [Instr.decode, .crcbuf] ∧ s.flen.toNat > fcap s.cfg))

/-- R147: an illegal word before everything; the range check before the command's own test; `VALIDATE` of an empty PDU
before the range check. -/
def Obligations.ErrorPriority : Prop :=
  (∀ (w : Word) (why : IllegalReason) (s t : State), decode w = .illegal why → execWord w s = .next t → t.errcode = 4) ∧
  (∀ s t : State, s.flen.toNat > fcap s.cfg → exec .decode s = .next t → t.errcode = 3) ∧
  (∀ s t : State, s.flen.toNat ≤ fcap s.cfg → s.flen.toNat < 12 → exec .decode s = .next t → t.errcode = 1) ∧
  (∀ s t : State, s.flen.toNat ≤ fcap s.cfg → 12 ≤ s.flen.toNat →
    deserNat s.cfg.endian (memRead s.frm 8 2) + 12 > s.flen.toNat → exec .decode s = .next t → t.errcode = 1) ∧
  (∀ (i : Instr) (s t : State), i ∈ [Instr.sealPdu, .encode, .validate] → s.len.toNat > s.cfg.maxSeg.toNat →
    exec i s = .next t → t.errcode = 3) ∧
  (∀ s t : State, s.flen.toNat > fcap s.cfg → exec .crcbuf s = .next t → t.errcode = 3) ∧
  (∀ s t : State, s.len = 0 → exec .validate s = .next t → t.errcode = 0 ∧ t.valid = true) ∧
  (∀ s t : State, s.len ≠ 0 → s.len.toNat ≤ s.cfg.maxSeg.toNat → pduChecksum s ≠ s.csum →
    exec .validate s = .next t → t.errcode = 2)

/-! ### Frames of the commands -/

/-- 10_state.md R16 and the 'Does not write' lines of R81, R84, R110, R133: which bytes of the buffers a command leaves
alone. The stored bytes are `FRM[0..12+LEN)` for `ENCODE`, `PAY[0..l)` for `DECODE`, none for the rest. -/
def Obligations.CommandsKeepTheOtherBytes : Prop :=
  (∀ (i : Instr) (s t : State), i ∉ [Instr.encode, .decode] → exec i s = .next t →
    ∀ a, Memory.get t.pay a = Memory.get s.pay a ∧ Memory.get t.frm a = Memory.get s.frm a) ∧
  (∀ s t : State, Memory.wf s.frm = true → exec .encode s = .next t →
    (∀ a, Memory.get t.pay a = Memory.get s.pay a) ∧
    (∀ a, (encodePdu s.cfg.endian (heldPdu s)).length ≤ a → Memory.get t.frm a = Memory.get s.frm a)) ∧
  (∀ s t : State, Memory.wf s.pay = true → exec .decode s = .next t →
    (∀ a, Memory.get t.frm a = Memory.get s.frm a) ∧
    (∀ a, t.len.toNat ≤ a → Memory.get t.pay a = Memory.get s.pay a) ∧
    (t.errcode ≠ 0 → ∀ a, Memory.get t.pay a = Memory.get s.pay a))

/-- R16, R18 and R19: which registers a command leaves alone. Every command keeps the build parameters (10_state.md R21),
`HSFAULT` (R24, 42_control.md R131) and `PEND` (R131). The fields `script`, `rdata` and `freeCount`, kept as well, are the
model's own (log entries 5, 6 and 4). -/
def Obligations.CommandsKeepTheOtherRegisters : Prop :=
  ∀ (i : Instr) (s t : State), exec i s = .next t →
    (t.cfg = s.cfg ∧ t.hsfault = s.hsfault ∧ t.pend = s.pend ∧ t.script = s.script ∧ t.rdata = s.rdata ∧
      t.freeCount = s.freeCount) ∧
    (i ∉ [Instr.decode, .clr] → t.total = s.total ∧ t.seq = s.seq ∧ t.len = s.len) ∧
    (i ∉ [Instr.sealPdu, .decode, .clr] → t.csum = s.csum) ∧
    (i ∉ [Instr.encode, .clr] → t.flen = s.flen) ∧
    (i ∈ [Instr.nop, .encode, .decode] ∨ (i = .validate ∧ s.len = 0) → t.crc = s.crc)

/-- 70_reset_and_hazards.md R167: one CRC register. `CRCBUF`, `SEAL`, `VALIDATE` on `LEN != 0` and `CLR` overwrite it,
whatever it held; `ENCODE`, `DECODE`, `NOP` and `VALIDATE` on `LEN == 0` leave it alone. -/
def Obligations.ChecksumCommandsOverwriteCrc : Prop :=
  (∀ (i : Instr) (s : State) (c : Half),
    i = .clr ∨ (i = .crcbuf ∧ s.flen.toNat ≤ fcap s.cfg) ∨ (i = .sealPdu ∧ s.len.toNat ≤ s.cfg.maxSeg.toNat) ∨
      (i = .validate ∧ s.len ≠ 0 ∧ s.len.toNat ≤ s.cfg.maxSeg.toNat) →
    exec i { s with crc := c } = exec i s) ∧
  (∀ (i : Instr) (s t : State),
    i ∈ [Instr.encode, .decode, .nop] ∨ (i = .validate ∧ s.len = 0) → exec i s = .next t → t.crc = s.crc)

/-- R15, R166: no command reads a byte of `PAY` beyond `LEN` or of `FRM` beyond `FLEN`. Two states that differ only there
end alike in every register and flag, and in the bytes that belong to the PDU and the frame afterwards. -/
def Obligations.StaleBytesAreNeverRead : Prop :=
  ∀ (i : Instr) (s t : State) (pay' frm' : Memory),
    Memory.wf s.pay = true → Memory.wf s.frm = true → Memory.wf pay' = true → Memory.wf frm' = true →
    memRead pay' 0 s.len.toNat = memRead s.pay 0 s.len.toNat →
    memRead frm' 0 s.flen.toNat = memRead s.frm 0 s.flen.toNat →
    exec i s = .next t →
    ∃ t', exec i { s with pay := pay', frm := frm' } = .next t' ∧
      t' = { t with pay := t'.pay, frm := t'.frm } ∧
      memRead t'.pay 0 t.len.toNat = memRead t.pay 0 t.len.toNat ∧
      memRead t'.frm 0 t.flen.toNat = memRead t.frm 0 t.flen.toNat

/-! ### The host port -/

/-- 20_memory.md R45: what the ten registers read as while `BUSY == 0`; a read changes no state of the block. -/
def Obligations.HostReadReturnsTheRegister : Prop :=
  ∀ s : State, s.busy = false →
    hostRead spaceReg 0 s = { s with rdata := cfgWord s.cfg } ∧
    hostRead spaceReg 1 s = { s with rdata := 0 } ∧
    hostRead spaceReg 2 s = { s with rdata := statusWord s } ∧
    hostRead spaceReg 3 s = { s with rdata := s.errcode.zeroExtend 32 } ∧
    hostRead spaceReg 4 s = { s with rdata := s.total } ∧
    hostRead spaceReg 5 s = { s with rdata := s.seq } ∧
    hostRead spaceReg 6 s = { s with rdata := s.len.zeroExtend 32 } ∧
    hostRead spaceReg 7 s = { s with rdata := s.csum.zeroExtend 32 } ∧
    hostRead spaceReg 8 s = { s with rdata := s.flen.zeroExtend 32 } ∧
    hostRead spaceReg 9 s = { s with rdata := s.crc.zeroExtend 32 }

/-- R46, R51 (with R26, R27): a host write while `BUSY == 0` changes the one register it names, keeping the low bits; a
write to a read-only register does nothing; a write to `CMD` latches the word and nothing else. -/
def Obligations.HostWriteChangesOneRegister : Prop :=
  ∀ (s : State) (v : Word), s.busy = false →
    hostWrite spaceReg 0 v s = s ∧ hostWrite spaceReg 2 v s = s ∧ hostWrite spaceReg 3 v s = s ∧
    hostWrite spaceReg 9 v s = s ∧
    hostWrite spaceReg 1 v s = { s with pend := v, busy := true, done := false } ∧
    hostWrite spaceReg 4 v s = { s with total := v } ∧
    hostWrite spaceReg 5 v s = { s with seq := v } ∧
    hostWrite spaceReg 6 v s = { s with len := BitVec.ofNat 16 v.toNat } ∧
    hostWrite spaceReg 7 v s = { s with csum := BitVec.ofNat 16 v.toNat } ∧
    hostWrite spaceReg 8 v s = { s with flen := BitVec.ofNat 17 v.toNat }

/-- R47, R48: a host access to a byte inside a buffer while `BUSY == 0`. The bound is the buffer's size, not `LEN` or
`FLEN`; nothing else changes. -/
def Obligations.HostAccessesOneBufferByte : Prop :=
  (∀ (s : State) (i : Index), s.busy = false → i.toNat < s.cfg.maxSeg.toNat →
    hostRead spacePay i s = { s with rdata := (Memory.get s.pay i.toNat).zeroExtend 32 }) ∧
  (∀ (s : State) (i : Index), s.busy = false → i.toNat < fcap s.cfg →
    hostRead spaceFrm i s = { s with rdata := (Memory.get s.frm i.toNat).zeroExtend 32 }) ∧
  (∀ (s : State) (i : Index) (v : Word), s.busy = false → Memory.wf s.pay = true → i.toNat < s.cfg.maxSeg.toNat →
    ∃ t, hostWrite spacePay i v s = t ∧ t = { s with pay := t.pay } ∧
      ∀ a, Memory.get t.pay a = if a = i.toNat then BitVec.ofNat 8 v.toNat else Memory.get s.pay a) ∧
  (∀ (s : State) (i : Index) (v : Word), s.busy = false → Memory.wf s.frm = true → i.toNat < fcap s.cfg →
    ∃ t, hostWrite spaceFrm i v s = t ∧ t = { s with frm := t.frm } ∧
      ∀ a, Memory.get t.frm a = if a = i.toNat then BitVec.ofNat 8 v.toNat else Memory.get s.frm a)

/-- R49 (with R28, R40): an access outside the map, busy or not, sets `HSFAULT`; a write changes nothing else, a read
returns some value the model says nothing about. -/
def Obligations.AccessesOutsideTheMapFault : Prop :=
  ∀ (s : State) (space : BitVec 2) (index : Index) (v : Word),
    space = 3 ∨ (space = 0 ∧ index.toNat ≥ 10) ∨ (space = 1 ∧ index.toNat ≥ s.cfg.maxSeg.toNat) ∨
      (space = 2 ∧ index.toNat ≥ s.cfg.maxSeg.toNat + 12) →
    hostWrite space index v s = { s with hsfault := true } ∧
    ∃ x : Word, hostRead space index s = { s with hsfault := true, rdata := x, freeCount := s.freeCount + 1 }

/-- R50: while `BUSY == 1` reads of `CFG`, `STATUS` and `ERRCODE` work; every other access sets `HSFAULT` and changes
nothing else of the block, so the completion is as if it had not happened. -/
def Obligations.AccessesWhileBusyFault : Prop :=
  ∀ s : State, s.busy = true →
    hostRead spaceReg 0 s = { s with rdata := cfgWord s.cfg } ∧
    hostRead spaceReg 2 s = { s with rdata := statusWord s } ∧
    hostRead spaceReg 3 s = { s with rdata := s.errcode.zeroExtend 32 } ∧
    (∀ (space : BitVec 2) (index : Index) (v : Word), hostWrite space index v s = { s with hsfault := true }) ∧
    (∀ (space : BitVec 2) (index : Index),
      ¬ (space = spaceReg ∧ (index = 0 ∨ index = 2 ∨ index = 3)) →
      ∃ x : Word, hostRead space index s = { s with hsfault := true, rdata := x, freeCount := s.freeCount + 1 }) ∧
    (∀ (t : State) (x : Word) (n : Nat), blockTurn s = .next t →
      blockTurn { s with hsfault := true, rdata := x, freeCount := n } =
        .next { t with hsfault := true, rdata := x, freeCount := n })

/-- R52: no host read has a side effect on the block but `HSFAULT` when it faults; a read that does not fault gives the
same answer again. -/
def Obligations.ReadsHaveNoSideEffect : Prop :=
  ∀ (s : State) (space : BitVec 2) (index : Index),
    hostRead space index s = { s with hsfault := (hostRead space index s).hsfault, rdata := (hostRead space index s).rdata,
                                      freeCount := (hostRead space index s).freeCount } ∧
    ((hostRead space index s).freeCount = s.freeCount →
      (hostRead space index s).hsfault = s.hsfault ∧
      hostRead space index (hostRead space index s) = hostRead space index s)

/-- 10_state.md R23 (the word): the bits of `STATUS`. -/
def Obligations.StatusBits : Prop :=
  ∀ s : State, (statusWord s).getLsbD 0 = s.busy ∧ (statusWord s).getLsbD 1 = s.done ∧
    ((statusWord s).getLsbD 2 = true ↔ s.errcode ≠ 0) ∧ (statusWord s).getLsbD 3 = s.valid ∧
    (statusWord s).getLsbD 4 = s.trail ∧ (statusWord s).getLsbD 5 = s.hsfault ∧
    ∀ k, 6 ≤ k → (statusWord s).getLsbD k = false

/-- R21 (with R4): `CFG` shows the build parameters, and no step changes them, not even reset. -/
def Obligations.BuildParametersNeverChange : Prop :=
  (∀ c : Config, (cfgWord c).extractLsb' 0 16 = c.maxSeg ∧ ((cfgWord c).getLsbD 16 = true ↔ c.endian = .big) ∧
    (cfgWord c).toNat / 131072 = 0) ∧
  (∀ s t : State, step s = .next t → t.cfg = s.cfg ∧ cfgWord t.cfg = cfgWord s.cfg)

/-- R24: `HSFAULT` is sticky: whatever the step, once 1 it stays 1 unless the step is a reset; and a host access sets it
exactly when it lies outside the map or is not allowed while busy. -/
def Obligations.HandshakeFaultIsSticky : Prop :=
  (∀ s t : State, step s = .next t → s.hsfault = true → (∀ rest, s.script ≠ .reset :: rest) → t.hsfault = true) ∧
  (∀ (s : State) (space : BitVec 2) (index : Index) (v : Word), s.hsfault = false →
    ((hostWrite space index v s).hsfault = true ↔ locate s.cfg space index = none ∨ s.busy = true) ∧
    ((hostRead space index s).hsfault = true ↔ locate s.cfg space index = none ∨
      (s.busy = true ∧ ¬ (space = spaceReg ∧ (index = 0 ∨ index = 2 ∨ index = 3))))) ∧
  (∀ (i : Instr) (s t : State), exec i s = .next t → t.hsfault = s.hsfault) ∧
  (∀ s : State, (applyReset s).hsfault = false)

/-! ### Host and block together -/

/-- R50, R53, R55, R130: whatever host accesses come between issue and completion, the pending command computes what it
would have computed at once. -/
def Obligations.HostCannotDisturbAPendingCommand : Prop :=
  ∀ (s : State) (accesses rest : List Event), s.busy = true → (∀ e ∈ accesses, e.isHostAccess = true) →
    ∃ u t t', runSteps accesses.length { s with script := accesses ++ rest } = .next u ∧
      u.script = rest ∧ s.SameBlock u ∧ blockTurn s = .next t ∧ blockTurn u = .next t' ∧ t.SameBlock t'

/-- R173: every issued command completes. Whatever host accesses and turns are scheduled, a pending command has completed
once the script has run out and the block has moved, unless a reset cancels it. That the block moves when the script is
empty is the model's form of the rule's fairness (log entry 5). -/
def Obligations.EveryIssuedCommandCompletes : Prop :=
  ∀ s : State, s.busy = true → (∀ e ∈ s.script, e ≠ .reset) →
    ∃ k t, k ≤ s.script.length + 1 ∧ runSteps k s = .next t ∧ t.busy = false ∧ t.done = true

/-- 30_encoding.md R73: `WAIT` polls `STATUS` until `DONE` is set. However often it polls, every poll before the completion
reads `DONE` = 0 and the last one reads `DONE` = 1. Where the completion falls among the polls is written in the script
(log entry 5). -/
def Obligations.WaitEndsWhenDoneIsRead : Prop :=
  ∀ (s : State) (polls : Nat) (rest : List Event), s.busy = true → s.done = false → s.script = waitEvents polls ++ rest →
    (∀ k, 1 ≤ k → k ≤ polls → ∃ u, runSteps k s = .next u ∧ u.rdata.getLsbD 1 = false ∧ u.rdata.getLsbD 0 = true) ∧
    ∃ t, runSteps (polls + 2) s = .next t ∧ t.script = rest ∧ t.rdata.getLsbD 1 = true ∧ t.busy = false ∧ t.done = true

/-! ### Invariant and reset -/

/-- 10_state.md R23, 20_memory.md R40, 60_exceptions.md R140: every step keeps the invariant `State.Inv`. -/
def Obligations.EveryStepKeepsTheInvariant : Prop :=
  ∀ s t : State, s.Inv → step s = .next t → t.Inv

/-- The reset state meets the invariant, and so does every power-up state whose buffers are canonical and of their size. -/
def Obligations.PowerUpMeetsTheInvariant : Prop :=
  State.reset.Inv ∧
  ∀ (c : Config) (pay frm : Memory) (pend : Word), Memory.wf pay = true → Memory.wf frm = true →
    Memory.within (paySize c) pay = true → Memory.within (fcap c) frm = true → (State.powerUp c pay frm pend).Inv

/-- 10_state.md R31: the reset values, for every build and every buffer content; `STATUS` reads 0; a reset that follows
earlier operation leaves the buffers and `CFG` as they were. `State.reset` is one such state. (What it takes for the build,
the buffers and `PEND` is the model's choice, log entries 2 and 3, and no clause says it.) -/
def Obligations.ResetValues : Prop :=
  (∃ (c : Config) (pay frm : Memory) (pend : Word), State.reset = State.powerUp c pay frm pend) ∧
  (∀ s : State, (applyReset s).pay = s.pay ∧ (applyReset s).frm = s.frm ∧ (applyReset s).cfg = s.cfg) ∧
  ∀ (c : Config) (pay frm : Memory) (pend : Word), ∃ s, State.powerUp c pay frm pend = s ∧
    s.cfg = c ∧ s.pay = pay ∧ s.frm = frm ∧ s.total = 0 ∧ s.seq = 0 ∧ s.len = 0 ∧ s.csum = 0 ∧ s.flen = 0 ∧
    s.crc = 0xFFFF ∧ s.errcode = 0 ∧ s.busy = false ∧ s.done = false ∧ errFlag s = false ∧ s.valid = false ∧
    s.trail = false ∧ s.hsfault = false ∧ statusWord s = 0

/-- R160, R162: a reset step, from any state, sets every register and flag to its reset value, cancels a pending command
without any of its effects, and does not write the buffers. `PEND` is unspecified after it: the model draws a free word
(log entry 4). That the rest of the script and `rdata` are kept is the model's (log entry 11). No other step clears
`HSFAULT`. -/
def Obligations.ResetStepFromAnyState : Prop :=
  (∀ (s : State) (rest : List Event), s.script = .reset :: rest → ∃ x : Word, step s =
    .next { s with
      script := rest, total := 0, seq := 0, len := 0, csum := 0, flen := 0, crc := 0xFFFF, errcode := 0, busy := false,
      done := false, valid := false, trail := false, hsfault := false, pend := x, freeCount := s.freeCount + 1 }) ∧
  (∀ s t : State, step s = .next t → s.hsfault = true → t.hsfault = false → ∃ rest, s.script = .reset :: rest)

/-- The canonical form means that equal contents are equal data: the model's own law of how it holds a buffer, from no rule
of the spec (log entry 13). -/
def Obligations.EqualContentsAreEqualData : Prop :=
  ∀ m m' : Memory, Memory.wf m = true → Memory.wf m' = true → (∀ a, Memory.get m a = Memory.get m' a) → m = m'

/-! ### The codec -/

/-- 30_encoding.md R62, R63: the bytes of a 16- and a 32-bit value in either order, and that reading them back is the
inverse in both directions. -/
def Obligations.SerialisationFollowsEndian : Prop :=
  (∀ v : Half, ser 2 .little v = [v.extractLsb' 0 8, v.extractLsb' 8 8] ∧
    ser 2 .big v = [v.extractLsb' 8 8, v.extractLsb' 0 8]) ∧
  (∀ v : Word, ser 4 .little v = [v.extractLsb' 0 8, v.extractLsb' 8 8, v.extractLsb' 16 8, v.extractLsb' 24 8] ∧
    ser 4 .big v = [v.extractLsb' 24 8, v.extractLsb' 16 8, v.extractLsb' 8 8, v.extractLsb' 0 8]) ∧
  (∀ a b : Byte, deserNat .little [a, b] = a.toNat + 256 * b.toNat ∧ deserNat .big [a, b] = b.toNat + 256 * a.toNat) ∧
  (∀ a b c d : Byte,
    deserNat .little [a, b, c, d] = a.toNat + 256 * b.toNat + 65536 * c.toNat + 16777216 * d.toNat ∧
    deserNat .big [a, b, c, d] = d.toNat + 256 * c.toNat + 65536 * b.toNat + 16777216 * a.toNat) ∧
  (∀ (e : Endian) (v : Half), deser 16 e (ser 2 e v) = v) ∧ (∀ (e : Endian) (v : Word), deser 32 e (ser 4 e v) = v) ∧
  (∀ (e : Endian) (b : List Byte), b.length = 2 → ser 2 e (deser 16 e b) = b) ∧
  (∀ (e : Endian) (b : List Byte), b.length = 4 → ser 4 e (deser 32 e b) = b) ∧
  ser 4 .little (0x0000000A : Word) = [0x0A, 0x00, 0x00, 0x00] ∧ ser 4 .big (0x0000000A : Word) = [0x00, 0x00, 0x00, 0x0A] ∧
  ser 2 .little (0xE61D : Half) = [0x1D, 0xE6] ∧ ser 2 .big (0xE61D : Half) = [0xE6, 0x1D]

/-- R60, R64, R65, R80: the layout of a frame of `12 + length` bytes. -/
def Obligations.FrameLayout : Prop :=
  ∀ (e : Endian) (p : Pdu), p.wf = true →
    (encodePdu e p).length = 12 + p.len.toNat ∧
    slice (encodePdu e p) 0 4 = ser 4 e p.total ∧ slice (encodePdu e p) 4 8 = ser 4 e p.seq ∧
    slice (encodePdu e p) 8 10 = ser 2 e p.len ∧
    slice (encodePdu e p) 0 10 = hdrBytes e p.total p.seq p.len ∧
    (∀ k, k < p.len.toNat → (encodePdu e p)[10 + k]? = p.payload[k]?) ∧
    slice (encodePdu e p) (10 + p.len.toNat) (12 + p.len.toNat) = ser 2 e p.csum

/-- 40_codec.md R85 (with R88): codec round-trip, for the functions and for the commands. -/
def Obligations.CodecRoundTrip : Prop :=
  (∀ (e : Endian) (p : Pdu), p.wf = true → decodeFrame e (encodePdu e p) = .ok (p, false)) ∧
  (∀ s : State, Memory.wf s.pay = true → Memory.wf s.frm = true → s.busy = false →
    s.len.toNat ≤ s.cfg.maxSeg.toNat →
    ∃ t, runSteps 4 { s with script := [cmdEvent .encode, .blockTurn, cmdEvent .decode, .blockTurn] } = .next t ∧
      t.total = s.total ∧ t.seq = s.seq ∧ t.len = s.len ∧ t.csum = s.csum ∧
      memRead t.pay 0 s.len.toNat = memRead s.pay 0 s.len.toNat ∧
      t.errcode = 0 ∧ t.trail = false ∧ t.flen.toNat = 12 + s.len.toNat)

/-- R86: re-encoding a decoded frame reproduces its first `12 + l` bytes, and all of it iff `trail` is false. -/
def Obligations.ReencodingReproducesTheFrame : Prop :=
  ∀ (e : Endian) (f : List Byte) (p : Pdu) (trail : Bool), decodeFrame e f = .ok (p, trail) →
    encodePdu e p = f.take (12 + p.len.toNat) ∧ (encodePdu e p = f ↔ trail = false)

/-- R87: a frame is structurally valid by `FLEN` and its two length bytes alone. -/
def Obligations.StructuralValidityIsLengthOnly : Prop :=
  (∀ s t : State, exec .decode s = .next t →
    (t.errcode = 0 ↔ 12 ≤ s.flen.toNat ∧ s.flen.toNat ≤ fcap s.cfg ∧
      deserNat s.cfg.endian [Memory.get s.frm 8, Memory.get s.frm 9] + 12 ≤ s.flen.toNat)) ∧
  (∀ s u t v : State, s.cfg = u.cfg → s.flen = u.flen → Memory.get s.frm 8 = Memory.get u.frm 8 →
    Memory.get s.frm 9 = Memory.get u.frm 9 → exec .decode s = .next t → exec .decode u = .next v →
    (t.errcode = 0 ↔ v.errcode = 0))

/-- R85, R105, R109, R110 (the properties S1 and S2 of GBN §8 for the block): a PDU that is sealed, encoded, decoded and
validated is valid and unchanged. -/
def Obligations.SealedFramesValidate : Prop :=
  ∀ s : State, Memory.wf s.pay = true → Memory.wf s.frm = true → s.len.toNat ≤ s.cfg.maxSeg.toNat →
    ∃ t, execAll [.sealPdu, .encode, .decode, .validate] s = .next t ∧ t.valid = true ∧ t.errcode = 0 ∧
      t.total = s.total ∧ t.seq = s.seq ∧ t.len = s.len ∧
      memRead t.pay 0 s.len.toNat = memRead s.pay 0 s.len.toNat ∧ t.csum = pduChecksum s

/-- R110, R116 (the detection of GBN §8 "Corruption"; 95_test_vectors.md V14): a sealed PDU of which one payload byte is
then changed fails `VALIDATE`. -/
def Obligations.ChangedPayloadByteIsDetected : Prop :=
  ∀ (s t : State) (i : Nat) (b : Byte), Memory.wf s.pay = true → s.len.toNat ≤ s.cfg.maxSeg.toNat →
    exec .sealPdu s = .next t → i < s.len.toNat → b ≠ Memory.get s.pay i →
    ∃ u, exec .validate { t with pay := Memory.set t.pay i b } = .next u ∧ u.valid = false ∧ u.errcode = 2

/-- 70_reset_and_hazards.md R171 (95_test_vectors.md V27): a frame longer than 12 bytes whose two length bytes are zero
decodes as an empty PDU with `TRAIL` = 1, and that PDU validates, whatever the other bytes are. -/
def Obligations.ZeroedLengthIsAcceptedAsEmpty : Prop :=
  ∀ s : State, 12 < s.flen.toNat → s.flen.toNat ≤ fcap s.cfg → Memory.get s.frm 8 = 0 → Memory.get s.frm 9 = 0 →
    ∃ t u, exec .decode s = .next t ∧ t.errcode = 0 ∧ t.len = 0 ∧ t.trail = true ∧ t.pay = s.pay ∧
      exec .validate t = .next u ∧ u.errcode = 0 ∧ u.valid = true ∧ u.trail = false ∧ u.crc = s.crc

/-! ### The checksum -/

/-- 41_checksum.md R112, R113: the byte step, its closed form and its table form are one function; the table's entries
that R113 lists. -/
def Obligations.CrcByteForms : Prop :=
  (∀ (r : Half) (b : Byte), crcByte r b = crcByteClosed r b ∧ crcByte r b = crcByteTable r b) ∧
  [0, 1, 2, 3, 16, 128, 255].map crcTable = [0x0000, 0x1021, 0x2042, 0x3063, 0x1231, 0x9188, 0x1EF0]

/-- R114: a checksum can be computed in pieces. -/
def Obligations.CrcComposition : Prop :=
  ∀ (r : Half) (a b : List Byte), crcBytes r (a ++ b) = crcBytes (crcBytes r a) b

/-- R115: affinity over `xor`. -/
def Obligations.CrcAffinity : Prop :=
  (∀ x y : Half, crcBit (x ^^^ y) = crcBit x ^^^ crcBit y) ∧
  (∀ (r1 r2 : Half) (a b : List Byte), a.length = b.length →
    crcBytes (r1 ^^^ r2) (xorBytes a b) = crcBytes r1 a ^^^ crcBytes r2 b) ∧
  (∀ a e : List Byte, a.length = e.length → checksum16 (xorBytes a e) = checksum16 a ^^^ crcBytes 0 e)

/-- R116: every error confined to 16 consecutive bits of a message changes its checksum; a single bit and all the bits of
one byte are such errors. -/
def Obligations.ShortErrorsAreDetected : Prop :=
  ∀ (m e : List Byte) (first : Nat), m.length = e.length → (∃ j, messageBit e j = true) →
    (∀ j, messageBit e j = true → first ≤ j ∧ j < first + 16) → checksum16 (xorBytes m e) ≠ checksum16 m

/-- R117: appending the checksum most significant byte first brings the register to zero; so `CRCBUF` over a sealed,
exactly sized big-endian frame gives 0; the little-endian frame of 95_test_vectors.md V10 does not. -/
def Obligations.ResidueIsZero : Prop :=
  (∀ m : List Byte,
    checksum16 (m ++ [(checksum16 m).extractLsb' 8 8] ++ [(checksum16 m).extractLsb' 0 8]) = 0) ∧
  (∀ s : State, Memory.wf s.frm = true → s.cfg.endian = .big → s.len.toNat ≤ s.cfg.maxSeg.toNat →
    ∃ t, execAll [.sealPdu, .encode, .crcbuf] s = .next t ∧ t.errcode = 0 ∧ t.crc = 0) ∧
  checksum16 [0x0A, 0x00, 0x00, 0x00, 0x01, 0x00, 0x00, 0x00, 0x04, 0x00, 0x41, 0x42, 0x43, 0x44, 0x1D, 0xE6] = 0x914F

/-- R103, R118: values of the checksum. -/
def Obligations.ChecksumValues : Prop :=
  checksum16 [] = 0xFFFF ∧ checksum16 [0x31, 0x32, 0x33, 0x34, 0x35, 0x36, 0x37, 0x38, 0x39] = 0x29B1 ∧
  crcByte 0x0000 0x00 = 0x0000 ∧ checksum16 [0x00] = 0xE1F0 ∧ checksum16 [0x00, 0x00] = 0x1D0F ∧
  (∀ m : List Byte, checksum16 m = m.foldl crcByte 0xFFFF)
end

