-- ==== Sys2Proof/Laws/State.lean ====
section
/-! SUPPORT. One lemma per field per update of the state, each true by rfl, so that no later proof unfolds a record update. -/

namespace Sys2Proof.Machine

@[simp] theorem finish_cfg (code : Byte) (valid trail : Bool) (s : State) : (finish code valid trail s).cfg = s.cfg := rfl
@[simp] theorem finish_total (code : Byte) (valid trail : Bool) (s : State) : (finish code valid trail s).total = s.total := rfl
@[simp] theorem finish_seq (code : Byte) (valid trail : Bool) (s : State) : (finish code valid trail s).seq = s.seq := rfl
@[simp] theorem finish_len (code : Byte) (valid trail : Bool) (s : State) : (finish code valid trail s).len = s.len := rfl
@[simp] theorem finish_csum (code : Byte) (valid trail : Bool) (s : State) : (finish code valid trail s).csum = s.csum := rfl
@[simp] theorem finish_flen (code : Byte) (valid trail : Bool) (s : State) : (finish code valid trail s).flen = s.flen := rfl
@[simp] theorem finish_crc (code : Byte) (valid trail : Bool) (s : State) : (finish code valid trail s).crc = s.crc := rfl
@[simp] theorem finish_errcode (code : Byte) (valid trail : Bool) (s : State) : (finish code valid trail s).errcode = code := rfl
@[simp] theorem finish_busy (code : Byte) (valid trail : Bool) (s : State) : (finish code valid trail s).busy = false := rfl
@[simp] theorem finish_done (code : Byte) (valid trail : Bool) (s : State) : (finish code valid trail s).done = true := rfl
@[simp] theorem finish_valid (code : Byte) (valid trail : Bool) (s : State) : (finish code valid trail s).valid = valid := rfl
@[simp] theorem finish_trail (code : Byte) (valid trail : Bool) (s : State) : (finish code valid trail s).trail = trail := rfl
@[simp] theorem finish_hsfault (code : Byte) (valid trail : Bool) (s : State) : (finish code valid trail s).hsfault = s.hsfault := rfl
@[simp] theorem finish_pend (code : Byte) (valid trail : Bool) (s : State) : (finish code valid trail s).pend = s.pend := rfl
@[simp] theorem finish_pay (code : Byte) (valid trail : Bool) (s : State) : (finish code valid trail s).pay = s.pay := rfl
@[simp] theorem finish_frm (code : Byte) (valid trail : Bool) (s : State) : (finish code valid trail s).frm = s.frm := rfl
@[simp] theorem finish_script (code : Byte) (valid trail : Bool) (s : State) : (finish code valid trail s).script = s.script := rfl
@[simp] theorem finish_rdata (code : Byte) (valid trail : Bool) (s : State) : (finish code valid trail s).rdata = s.rdata := rfl
@[simp] theorem finish_freeCount (code : Byte) (valid trail : Bool) (s : State) : (finish code valid trail s).freeCount = s.freeCount := rfl

@[simp] theorem loadPdu_cfg (p : Pdu) (s : State) : (loadPdu p s).cfg = s.cfg := rfl
@[simp] theorem loadPdu_total (p : Pdu) (s : State) : (loadPdu p s).total = p.total := rfl
@[simp] theorem loadPdu_seq (p : Pdu) (s : State) : (loadPdu p s).seq = p.seq := rfl
@[simp] theorem loadPdu_len (p : Pdu) (s : State) : (loadPdu p s).len = p.len := rfl
@[simp] theorem loadPdu_csum (p : Pdu) (s : State) : (loadPdu p s).csum = p.csum := rfl
@[simp] theorem loadPdu_flen (p : Pdu) (s : State) : (loadPdu p s).flen = s.flen := rfl
@[simp] theorem loadPdu_crc (p : Pdu) (s : State) : (loadPdu p s).crc = s.crc := rfl
@[simp] theorem loadPdu_errcode (p : Pdu) (s : State) : (loadPdu p s).errcode = s.errcode := rfl
@[simp] theorem loadPdu_busy (p : Pdu) (s : State) : (loadPdu p s).busy = s.busy := rfl
@[simp] theorem loadPdu_done (p : Pdu) (s : State) : (loadPdu p s).done = s.done := rfl
@[simp] theorem loadPdu_valid (p : Pdu) (s : State) : (loadPdu p s).valid = s.valid := rfl
@[simp] theorem loadPdu_trail (p : Pdu) (s : State) : (loadPdu p s).trail = s.trail := rfl
@[simp] theorem loadPdu_hsfault (p : Pdu) (s : State) : (loadPdu p s).hsfault = s.hsfault := rfl
@[simp] theorem loadPdu_pend (p : Pdu) (s : State) : (loadPdu p s).pend = s.pend := rfl
@[simp] theorem loadPdu_pay (p : Pdu) (s : State) : (loadPdu p s).pay = memWrite s.pay 0 p.payload := rfl
@[simp] theorem loadPdu_frm (p : Pdu) (s : State) : (loadPdu p s).frm = s.frm := rfl
@[simp] theorem loadPdu_script (p : Pdu) (s : State) : (loadPdu p s).script = s.script := rfl
@[simp] theorem loadPdu_rdata (p : Pdu) (s : State) : (loadPdu p s).rdata = s.rdata := rfl
@[simp] theorem loadPdu_freeCount (p : Pdu) (s : State) : (loadPdu p s).freeCount = s.freeCount := rfl

@[simp] theorem answerRead_cfg (v : Word) (s : State) : (answerRead v s).cfg = s.cfg := rfl
@[simp] theorem answerRead_total (v : Word) (s : State) : (answerRead v s).total = s.total := rfl
@[simp] theorem answerRead_seq (v : Word) (s : State) : (answerRead v s).seq = s.seq := rfl
@[simp] theorem answerRead_len (v : Word) (s : State) : (answerRead v s).len = s.len := rfl
@[simp] theorem answerRead_csum (v : Word) (s : State) : (answerRead v s).csum = s.csum := rfl
@[simp] theorem answerRead_flen (v : Word) (s : State) : (answerRead v s).flen = s.flen := rfl
@[simp] theorem answerRead_crc (v : Word) (s : State) : (answerRead v s).crc = s.crc := rfl
@[simp] theorem answerRead_errcode (v : Word) (s : State) : (answerRead v s).errcode = s.errcode := rfl
@[simp] theorem answerRead_busy (v : Word) (s : State) : (answerRead v s).busy = s.busy := rfl
@[simp] theorem answerRead_done (v : Word) (s : State) : (answerRead v s).done = s.done := rfl
@[simp] theorem answerRead_valid (v : Word) (s : State) : (answerRead v s).valid = s.valid := rfl
@[simp] theorem answerRead_trail (v : Word) (s : State) : (answerRead v s).trail = s.trail := rfl
@[simp] theorem answerRead_hsfault (v : Word) (s : State) : (answerRead v s).hsfault = s.hsfault := rfl
@[simp] theorem answerRead_pend (v : Word) (s : State) : (answerRead v s).pend = s.pend := rfl
@[simp] theorem answerRead_pay (v : Word) (s : State) : (answerRead v s).pay = s.pay := rfl
@[simp] theorem answerRead_frm (v : Word) (s : State) : (answerRead v s).frm = s.frm := rfl
@[simp] theorem answerRead_script (v : Word) (s : State) : (answerRead v s).script = s.script := rfl
@[simp] theorem answerRead_rdata (v : Word) (s : State) : (answerRead v s).rdata = v := rfl
@[simp] theorem answerRead_freeCount (v : Word) (s : State) : (answerRead v s).freeCount = s.freeCount := rfl

@[simp] theorem faultRead_cfg (s : State) : (faultRead s).cfg = s.cfg := rfl
@[simp] theorem faultRead_total (s : State) : (faultRead s).total = s.total := rfl
@[simp] theorem faultRead_seq (s : State) : (faultRead s).seq = s.seq := rfl
@[simp] theorem faultRead_len (s : State) : (faultRead s).len = s.len := rfl
@[simp] theorem faultRead_csum (s : State) : (faultRead s).csum = s.csum := rfl
@[simp] theorem faultRead_flen (s : State) : (faultRead s).flen = s.flen := rfl
@[simp] theorem faultRead_crc (s : State) : (faultRead s).crc = s.crc := rfl
@[simp] theorem faultRead_errcode (s : State) : (faultRead s).errcode = s.errcode := rfl
@[simp] theorem faultRead_busy (s : State) : (faultRead s).busy = s.busy := rfl
@[simp] theorem faultRead_done (s : State) : (faultRead s).done = s.done := rfl
@[simp] theorem faultRead_valid (s : State) : (faultRead s).valid = s.valid := rfl
@[simp] theorem faultRead_trail (s : State) : (faultRead s).trail = s.trail := rfl
@[simp] theorem faultRead_hsfault (s : State) : (faultRead s).hsfault = true := rfl
@[simp] theorem faultRead_pend (s : State) : (faultRead s).pend = s.pend := rfl
@[simp] theorem faultRead_pay (s : State) : (faultRead s).pay = s.pay := rfl
@[simp] theorem faultRead_frm (s : State) : (faultRead s).frm = s.frm := rfl
@[simp] theorem faultRead_script (s : State) : (faultRead s).script = s.script := rfl
@[simp] theorem faultRead_rdata (s : State) : (faultRead s).rdata = Config.freeWord s.freeCount := rfl
@[simp] theorem faultRead_freeCount (s : State) : (faultRead s).freeCount = s.freeCount + 1 := rfl

@[simp] theorem dropWrite_cfg (s : State) : (dropWrite s).cfg = s.cfg := rfl
@[simp] theorem dropWrite_total (s : State) : (dropWrite s).total = s.total := rfl
@[simp] theorem dropWrite_seq (s : State) : (dropWrite s).seq = s.seq := rfl
@[simp] theorem dropWrite_len (s : State) : (dropWrite s).len = s.len := rfl
@[simp] theorem dropWrite_csum (s : State) : (dropWrite s).csum = s.csum := rfl
@[simp] theorem dropWrite_flen (s : State) : (dropWrite s).flen = s.flen := rfl
@[simp] theorem dropWrite_crc (s : State) : (dropWrite s).crc = s.crc := rfl
@[simp] theorem dropWrite_errcode (s : State) : (dropWrite s).errcode = s.errcode := rfl
@[simp] theorem dropWrite_busy (s : State) : (dropWrite s).busy = s.busy := rfl
@[simp] theorem dropWrite_done (s : State) : (dropWrite s).done = s.done := rfl
@[simp] theorem dropWrite_valid (s : State) : (dropWrite s).valid = s.valid := rfl
@[simp] theorem dropWrite_trail (s : State) : (dropWrite s).trail = s.trail := rfl
@[simp] theorem dropWrite_hsfault (s : State) : (dropWrite s).hsfault = true := rfl
@[simp] theorem dropWrite_pend (s : State) : (dropWrite s).pend = s.pend := rfl
@[simp] theorem dropWrite_pay (s : State) : (dropWrite s).pay = s.pay := rfl
@[simp] theorem dropWrite_frm (s : State) : (dropWrite s).frm = s.frm := rfl
@[simp] theorem dropWrite_script (s : State) : (dropWrite s).script = s.script := rfl
@[simp] theorem dropWrite_rdata (s : State) : (dropWrite s).rdata = s.rdata := rfl
@[simp] theorem dropWrite_freeCount (s : State) : (dropWrite s).freeCount = s.freeCount := rfl

@[simp] theorem issue_cfg (w : Word) (s : State) : (issue w s).cfg = s.cfg := rfl
@[simp] theorem issue_total (w : Word) (s : State) : (issue w s).total = s.total := rfl
@[simp] theorem issue_seq (w : Word) (s : State) : (issue w s).seq = s.seq := rfl
@[simp] theorem issue_len (w : Word) (s : State) : (issue w s).len = s.len := rfl
@[simp] theorem issue_csum (w : Word) (s : State) : (issue w s).csum = s.csum := rfl
@[simp] theorem issue_flen (w : Word) (s : State) : (issue w s).flen = s.flen := rfl
@[simp] theorem issue_crc (w : Word) (s : State) : (issue w s).crc = s.crc := rfl
@[simp] theorem issue_errcode (w : Word) (s : State) : (issue w s).errcode = s.errcode := rfl
@[simp] theorem issue_busy (w : Word) (s : State) : (issue w s).busy = true := rfl
@[simp] theorem issue_done (w : Word) (s : State) : (issue w s).done = false := rfl
@[simp] theorem issue_valid (w : Word) (s : State) : (issue w s).valid = s.valid := rfl
@[simp] theorem issue_trail (w : Word) (s : State) : (issue w s).trail = s.trail := rfl
@[simp] theorem issue_hsfault (w : Word) (s : State) : (issue w s).hsfault = s.hsfault := rfl
@[simp] theorem issue_pend (w : Word) (s : State) : (issue w s).pend = w := rfl
@[simp] theorem issue_pay (w : Word) (s : State) : (issue w s).pay = s.pay := rfl
@[simp] theorem issue_frm (w : Word) (s : State) : (issue w s).frm = s.frm := rfl
@[simp] theorem issue_script (w : Word) (s : State) : (issue w s).script = s.script := rfl
@[simp] theorem issue_rdata (w : Word) (s : State) : (issue w s).rdata = s.rdata := rfl
@[simp] theorem issue_freeCount (w : Word) (s : State) : (issue w s).freeCount = s.freeCount := rfl

@[simp] theorem applyReset_cfg (s : State) : (applyReset s).cfg = s.cfg := rfl
@[simp] theorem applyReset_total (s : State) : (applyReset s).total = 0 := rfl
@[simp] theorem applyReset_seq (s : State) : (applyReset s).seq = 0 := rfl
@[simp] theorem applyReset_len (s : State) : (applyReset s).len = 0 := rfl
@[simp] theorem applyReset_csum (s : State) : (applyReset s).csum = 0 := rfl
@[simp] theorem applyReset_flen (s : State) : (applyReset s).flen = 0 := rfl
@[simp] theorem applyReset_crc (s : State) : (applyReset s).crc = crcInit := rfl
@[simp] theorem applyReset_errcode (s : State) : (applyReset s).errcode = 0 := rfl
@[simp] theorem applyReset_busy (s : State) : (applyReset s).busy = false := rfl
@[simp] theorem applyReset_done (s : State) : (applyReset s).done = false := rfl
@[simp] theorem applyReset_valid (s : State) : (applyReset s).valid = false := rfl
@[simp] theorem applyReset_trail (s : State) : (applyReset s).trail = false := rfl
@[simp] theorem applyReset_hsfault (s : State) : (applyReset s).hsfault = false := rfl
@[simp] theorem applyReset_pend (s : State) : (applyReset s).pend = Config.freeWord s.freeCount := rfl
@[simp] theorem applyReset_pay (s : State) : (applyReset s).pay = s.pay := rfl
@[simp] theorem applyReset_frm (s : State) : (applyReset s).frm = s.frm := rfl
@[simp] theorem applyReset_script (s : State) : (applyReset s).script = s.script := rfl
@[simp] theorem applyReset_rdata (s : State) : (applyReset s).rdata = s.rdata := rfl
@[simp] theorem applyReset_freeCount (s : State) : (applyReset s).freeCount = s.freeCount + 1 := rfl

@[simp] theorem placeCommand_cfg (w : Word) (s : State) : (placeCommand w s).cfg = s.cfg := rfl
@[simp] theorem placeCommand_total (w : Word) (s : State) : (placeCommand w s).total = s.total := rfl
@[simp] theorem placeCommand_seq (w : Word) (s : State) : (placeCommand w s).seq = s.seq := rfl
@[simp] theorem placeCommand_len (w : Word) (s : State) : (placeCommand w s).len = s.len := rfl
@[simp] theorem placeCommand_csum (w : Word) (s : State) : (placeCommand w s).csum = s.csum := rfl
@[simp] theorem placeCommand_flen (w : Word) (s : State) : (placeCommand w s).flen = s.flen := rfl
@[simp] theorem placeCommand_crc (w : Word) (s : State) : (placeCommand w s).crc = s.crc := rfl
@[simp] theorem placeCommand_errcode (w : Word) (s : State) : (placeCommand w s).errcode = s.errcode := rfl
@[simp] theorem placeCommand_busy (w : Word) (s : State) : (placeCommand w s).busy = true := rfl
@[simp] theorem placeCommand_done (w : Word) (s : State) : (placeCommand w s).done = false := rfl
@[simp] theorem placeCommand_valid (w : Word) (s : State) : (placeCommand w s).valid = s.valid := rfl
@[simp] theorem placeCommand_trail (w : Word) (s : State) : (placeCommand w s).trail = s.trail := rfl
@[simp] theorem placeCommand_hsfault (w : Word) (s : State) : (placeCommand w s).hsfault = s.hsfault := rfl
@[simp] theorem placeCommand_pend (w : Word) (s : State) : (placeCommand w s).pend = w := rfl
@[simp] theorem placeCommand_pay (w : Word) (s : State) : (placeCommand w s).pay = s.pay := rfl
@[simp] theorem placeCommand_frm (w : Word) (s : State) : (placeCommand w s).frm = s.frm := rfl
@[simp] theorem placeCommand_script (w : Word) (s : State) : (placeCommand w s).script = .blockTurn :: s.script := rfl
@[simp] theorem placeCommand_rdata (w : Word) (s : State) : (placeCommand w s).rdata = s.rdata := rfl
@[simp] theorem placeCommand_freeCount (w : Word) (s : State) : (placeCommand w s).freeCount = s.freeCount := rfl

end Sys2Proof.Machine
end

