-- ==== Sys2Proof/Laws/Memory.lean ====
section
/-! SUPPORT. The laws of the byte buffers: read after write, the canonical form, and that equal contents are equal data. -/

namespace Sys2Proof.Machine

/-! ### One byte -/

theorem Memory.get_cons (i : Nat) (b : Byte) (m : Memory) (h : Memory.get m i = Memory.unlisted) (j : Nat) :
    Memory.get (Memory.cons i b m) j = if i = j then b else Memory.get m j := by
  unfold Memory.cons
  by_cases hb : b = Memory.unlisted
  · by_cases hij : i = j <;> simp_all
  · simp [hb, Memory.get]

/-- Every listed index is above `i`. -/
def Memory.above (i : Nat) (m : Memory) : Prop := ∀ c ∈ m, i < c.1

theorem Memory.get_of_above {i : Nat} {m : Memory} (h : Memory.above i m) {j : Nat} (hj : j ≤ i) :
    Memory.get m j = Memory.unlisted := by
  induction m with
  | nil => rfl
  | cons c m ih =>
    have hc : i < c.1 := h c (by simp)
    have hne : ¬ c.1 = j := by omega
    simp only [Memory.get, if_neg hne]
    exact ih fun d hd => h d (by simp [hd])

/-- The canonical form, one entry at a time. -/
theorem Memory.wf_cons {c : Host.Cell} {m : Memory} :
    Memory.wf (c :: m) = true ↔ c.2 ≠ Memory.unlisted ∧ Memory.above c.1 m ∧ Memory.wf m = true := by
  induction m generalizing c with
  | nil => simp [Memory.wf, Memory.above]
  | cons d m ih =>
    simp only [Memory.wf, Bool.and_eq_true, decide_eq_true_eq, Memory.above, List.mem_cons, forall_eq_or_imp]
    constructor
    · rintro ⟨⟨h1, h2⟩, h3⟩
      exact ⟨h1, ⟨h2, fun e he => lt_trans h2 ((ih.mp h3).2.1 e he)⟩, h3⟩
    · rintro ⟨h1, ⟨h2, -⟩, h3⟩
      exact ⟨⟨h1, h2⟩, h3⟩

theorem Memory.cons_above {i j : Nat} {b : Byte} {m : Memory} (h : Memory.above i m) (hij : i < j) :
    Memory.above i (Memory.cons j b m) := by
  intro c hc
  unfold Memory.cons at hc
  split at hc
  · exact h c hc
  · rcases List.mem_cons.mp hc with rfl | hc
    · exact hij
    · exact h c hc

theorem Memory.set_above {i j : Nat} {b : Byte} {m : Memory} (h : Memory.above i m) (hij : i < j) :
    Memory.above i (Memory.set m j b) := by
  induction m with
  | nil => exact Memory.cons_above h hij
  | cons c m ih =>
    have hm : Memory.above i m := fun d hd => h d (by simp [hd])
    simp only [Memory.set]
    split
    · exact Memory.cons_above h hij
    · split
      · exact Memory.cons_above hm hij
      · intro d hd
        rcases List.mem_cons.mp hd with rfl | hd
        · exact h d (by simp)
        · exact ih hm d hd

theorem Memory.cons_wf {i : Nat} {b : Byte} {m : Memory} (hm : Memory.wf m = true) (h : Memory.above i m) :
    Memory.wf (Memory.cons i b m) = true := by
  unfold Memory.cons
  split
  · exact hm
  · exact Memory.wf_cons.mpr ⟨by assumption, h, hm⟩

/-- A store keeps the canonical form. -/
theorem Memory.set_wf {m : Memory} (hm : Memory.wf m = true) (i : Nat) (b : Byte) :
    Memory.wf (Memory.set m i b) = true := by
  induction m with
  | nil => exact Memory.cons_wf hm (by simp [Memory.above])
  | cons c m ih =>
    obtain ⟨hc, ha, hw⟩ := Memory.wf_cons.mp hm
    simp only [Memory.set]
    split
    · rename_i h
      refine Memory.cons_wf hm fun d hd => ?_
      rcases List.mem_cons.mp hd with rfl | hd
      · exact h
      · exact lt_trans h (ha d hd)
    · split
      · rename_i h
        exact Memory.cons_wf hw (h ▸ ha)
      · exact Memory.wf_cons.mpr ⟨hc, Memory.set_above ha (by omega), ih hw⟩

/-- Read after write, one byte. -/
theorem Memory.get_set {m : Memory} (hm : Memory.wf m = true) (i : Nat) (b : Byte) (j : Nat) :
    Memory.get (Memory.set m i b) j = if i = j then b else Memory.get m j := by
  induction m with
  | nil => exact Memory.get_cons i b [] rfl j
  | cons c m ih =>
    obtain ⟨-, ha, hw⟩ := Memory.wf_cons.mp hm
    simp only [Memory.set]
    split
    · rename_i h
      refine Memory.get_cons i b _ (Memory.get_of_above (i := i) (fun d hd => ?_) le_rfl) j
      rcases List.mem_cons.mp hd with rfl | hd
      · exact h
      · exact lt_trans h (ha d hd)
    · split
      · rename_i h
        have hi : Memory.above i m := h ▸ ha
        rw [Memory.get_cons i b m (Memory.get_of_above hi le_rfl)]
        by_cases hij : i = j
        · simp [hij]
        · simp [Memory.get, hij, ← h]
      · simp only [Memory.get, ih hw]
        by_cases hcj : c.1 = j
        · have : ¬ i = j := by omega
          simp [hcj, this]
        · simp [hcj]

theorem Memory.set_within {n : Nat} {m : Memory} (hm : Memory.within n m = true) {i : Nat} (hi : i < n) (b : Byte) :
    Memory.within n (Memory.set m i b) = true := by
  have hcons : ∀ m : Memory, Memory.within n m = true → Memory.within n (Memory.cons i b m) = true := by
    intro m hm
    unfold Memory.cons
    split
    · exact hm
    · simpa [Memory.within, hi] using hm
  induction m with
  | nil => exact hcons [] hm
  | cons c m ih =>
    have hm' : c.1 < n ∧ Memory.within n m = true := by simpa [Memory.within] using hm
    simp only [Memory.set]
    split
    · exact hcons _ hm
    · split
      · exact hcons _ hm'.2
      · simpa [Memory.within, hm'.1] using ih hm'.2

/-- An index outside the buffer reads as an unlisted one. -/
theorem Memory.get_of_within {n : Nat} {m : Memory} (hm : Memory.within n m = true) {i : Nat} (hi : n ≤ i) :
    Memory.get m i = Memory.unlisted := by
  induction m with
  | nil => rfl
  | cons c m ih =>
    have hm' : c.1 < n ∧ Memory.within n m = true := by simpa [Memory.within] using hm
    have hne : ¬ c.1 = i := by omega
    simpa [Memory.get, hne] using ih hm'.2

/-! ### Runs of bytes -/

@[simp] theorem memRead_length (m : Memory) (i n : Nat) : (memRead m i n).length = n := by
  induction n generalizing i with
  | zero => rfl
  | succ n ih => simp [memRead, ih]

theorem memRead_getElem? (m : Memory) (i n k : Nat) :
    (memRead m i n)[k]? = if k < n then some (m.get (i + k)) else none := by
  induction n generalizing i k with
  | zero => simp [memRead]
  | succ n ih =>
    cases k with
    | zero => simp [memRead]
    | succ k => simp [memRead, ih, Nat.add_assoc, Nat.add_comm 1 k]

theorem memRead_congr {m m' : Memory} {i n : Nat} (h : ∀ a, i ≤ a → a < i + n → m.get a = m'.get a) :
    memRead m i n = memRead m' i n := by
  induction n generalizing i with
  | zero => rfl
  | succ n ih =>
    simp only [memRead]
    rw [h i le_rfl (by omega), ih fun a h1 h2 => h a (by omega) (by omega)]

theorem memWrite_wf {m : Memory} (hm : Memory.wf m = true) (i : Nat) (bs : List Byte) :
    Memory.wf (memWrite m i bs) = true := by
  induction bs generalizing m i with
  | nil => exact hm
  | cons b bs ih => exact ih (Memory.set_wf hm i b) (i + 1)

theorem memWrite_within {n : Nat} {m : Memory} (hm : Memory.within n m = true) {i : Nat} {bs : List Byte}
    (h : i + bs.length ≤ n) : Memory.within n (memWrite m i bs) = true := by
  induction bs generalizing m i with
  | nil => exact hm
  | cons b bs ih =>
    simp only [List.length_cons] at h
    exact ih (Memory.set_within hm (by omega) b) (by omega)

/-- `MemWrite` changes the bytes it names and no other (20_memory.md R44). -/
theorem get_memWrite {m : Memory} (hm : Memory.wf m = true) (i : Nat) (bs : List Byte) (a : Nat) :
    Memory.get (memWrite m i bs) a = if i ≤ a then (bs[a - i]?).getD (m.get a) else m.get a := by
  induction bs generalizing m i with
  | nil => simp [memWrite]
  | cons b bs ih =>
    simp only [memWrite, ih (Memory.set_wf hm i b), Memory.get_set hm]
    rcases Nat.lt_trichotomy a i with h | h | h
    · have h1 : ¬ i + 1 ≤ a := by omega
      have h2 : ¬ i ≤ a := by omega
      have h3 : ¬ i = a := by omega
      simp [h1, h2, h3]
    · subst h
      simp
    · have h1 : i + 1 ≤ a := by omega
      have h2 : i ≤ a := by omega
      have h3 : ¬ i = a := by omega
      obtain ⟨k, rfl⟩ : ∃ k, a = i + 1 + k := ⟨a - (i + 1), by omega⟩
      have h4 : i + 1 + k - (i + 1) = k := by omega
      have h5 : i + 1 + k - i = k + 1 := by omega
      simp [h1, h2, h3, h4, h5]

/-- Beyond the bytes written everything reads as before. -/
theorem get_memWrite_beyond {m : Memory} (hm : Memory.wf m = true) {i : Nat} {bs : List Byte} {a : Nat}
    (h : i + bs.length ≤ a) : Memory.get (memWrite m i bs) a = m.get a := by
  have h1 : i ≤ a := by omega
  have h2 : bs[a - i]? = none := List.getElem?_eq_none_iff.mpr (by omega)
  simp [get_memWrite hm, h1, h2]

/-- The bytes just written are read back. -/
theorem memRead_memWrite {m : Memory} (hm : Memory.wf m = true) (i : Nat) (bs : List Byte) :
    memRead (memWrite m i bs) i bs.length = bs := by
  apply List.ext_getElem?
  intro k
  rw [memRead_getElem?, get_memWrite hm]
  by_cases hk : k < bs.length
  · simp [hk]
  · simp [hk]

/-- Writing back what stands there changes nothing. -/
theorem get_memWrite_memRead {m : Memory} (hm : Memory.wf m = true) (i n a : Nat) :
    Memory.get (memWrite m i (memRead m i n)) a = m.get a := by
  rw [get_memWrite hm]
  split
  · rename_i h
    rw [memRead_getElem?]
    split
    · simp [Nat.add_sub_cancel' h]
    · rfl
  · rfl

end Sys2Proof.Machine
end

