-- ==== Sys2Proof/Laws/Codec.lean ====
section
/-! SUPPORT. The laws of the codec's functions: lengths, slices, what `decodeFrame` can answer, and the byte order. -/

namespace Sys2Proof.Machine

/-! ### Serialised numbers -/

@[simp] theorem ser_length {w : Nat} (n : Nat) (e : Endian) (v : BitVec w) : (ser n e v).length = n := by
  cases e <;> simp [ser]

theorem natOfBytes_lt (b : List Byte) : natOfBytes b < 256 ^ b.length := by
  induction b with
  | nil => simp [natOfBytes]
  | cons b bs ih =>
    have := b.isLt
    simp only [natOfBytes, List.length_cons, Nat.pow_succ]
    omega

theorem deserNat_lt (e : Endian) (b : List Byte) : deserNat e b < 256 ^ b.length := by
  cases e
  · exact natOfBytes_lt b
  · simpa [deserNat] using natOfBytes_lt b.reverse

/-- Two bytes read as a 16-bit value lose nothing. -/
theorem deser_toNat_two (e : Endian) {b : List Byte} (h : b.length = 2) : (deser 16 e b).toNat = deserNat e b := by
  have := deserNat_lt e b
  rw [h] at this
  simp only [deser, BitVec.toNat_ofNat]
  exact Nat.mod_eq_of_lt (by omega)

/-- Four bytes read as a 32-bit value lose nothing. -/
theorem deser_toNat_four (e : Endian) {b : List Byte} (h : b.length = 4) : (deser 32 e b).toNat = deserNat e b := by
  have := deserNat_lt e b
  rw [h] at this
  simp only [deser, BitVec.toNat_ofNat]
  exact Nat.mod_eq_of_lt (by omega)

/-! ### Slices and frames -/

@[simp] theorem hdrBytes_length (e : Endian) (t s : Word) (l : Half) : (hdrBytes e t s l).length = 10 := by
  simp [hdrBytes]

theorem encodePdu_length (e : Endian) (p : Pdu) : (encodePdu e p).length = 12 + p.payload.length := by
  simp [encodePdu]
  omega

theorem slice_length (f : List Byte) (a b : Nat) (h : b ≤ f.length) : (slice f a b).length = b - a := by
  simp only [slice, List.length_take, List.length_drop]
  omega

theorem slice_getElem? (f : List Byte) (a b k : Nat) :
    (slice f a b)[k]? = if k < b - a then f[a + k]? else none := by
  simp [slice, List.getElem?_take, List.getElem?_drop]

/-- A slice of the bytes read is the bytes read there. -/
theorem slice_memRead (m : Memory) (i n a b : Nat) (h : b ≤ n) : slice (memRead m i n) a b = memRead m (i + a) (b - a) := by
  apply List.ext_getElem?
  intro k
  rw [slice_getElem?, memRead_getElem?, memRead_getElem?]
  by_cases hk : k < b - a
  · have h1 : a + k < n := by omega
    simp [hk, h1, Nat.add_assoc]
  · simp [hk]

/-- Everything `decodeFrame` can answer (R82). -/
theorem decodeFrame_cases (e : Endian) (f : List Byte) :
    ((f.length < 12 ∨ (deser 16 e (slice f 8 10)).toNat + 12 > f.length) ∧
      decodeFrame e f = .error .malformedPdu) ∨
    (12 ≤ f.length ∧ (deser 16 e (slice f 8 10)).toNat + 12 ≤ f.length ∧
      decodeFrame e f = .ok
        ({ total := deser 32 e (slice f 0 4), seq := deser 32 e (slice f 4 8), len := deser 16 e (slice f 8 10),
           payload := slice f 10 (10 + (deser 16 e (slice f 8 10)).toNat),
           csum := deser 16 e (slice f (10 + (deser 16 e (slice f 8 10)).toNat)
             (12 + (deser 16 e (slice f 8 10)).toNat)) },
         decide (f.length > (deser 16 e (slice f 8 10)).toNat + 12))) := by
  unfold decodeFrame
  simp only [show ovh = 12 from rfl, show hdr = 10 from rfl]
  split
  · exact .inl ⟨.inl ‹_›, rfl⟩
  · split
    · exact .inl ⟨.inr ‹_›, rfl⟩
    · exact .inr ⟨by omega, by omega, rfl⟩

/-- The payload of a decoded PDU has the length its `length` field says (R15). -/
theorem decodeFrame_wf {e : Endian} {f : List Byte} {p : Pdu} {trail : Bool}
    (h : decodeFrame e f = .ok (p, trail)) : p.wf = true := by
  rcases decodeFrame_cases e f with ⟨-, h'⟩ | ⟨-, hl, h'⟩
  · simp [h'] at h
  · rw [h'] at h
    simp only [Except.ok.injEq, Prod.mk.injEq] at h
    rw [← h.1]
    simp only [Pdu.wf, decide_eq_true_eq]
    rw [slice_length _ _ _ (by omega)]
    omega

end Sys2Proof.Machine
end

