-- ==== Sys2Proof/Laws/Exec.lean ====
section
/-! SUPPORT. What a command, a host access and a step can do, each said once: an inversion lemma per shared operation. -/

namespace Sys2Proof.Machine

theorem lenInRange_iff (s : State) : lenInRange s = true ↔ s.len.toNat ≤ s.cfg.maxSeg.toNat := by
  exact decide_eq_true_iff

theorem flenInRange_iff (s : State) : flenInRange s = true ↔ s.flen.toNat ≤ fcap s.cfg := by
  exact decide_eq_true_iff

/-! ### The commands with more than one way to end -/

theorem execCrcbuf_cases (s : State) :
    (s.flen.toNat ≤ fcap s.cfg ∧ execCrcbuf s = .next (succeed { s with crc := checksum16 (heldFrame s) })) ∨
    (fcap s.cfg < s.flen.toNat ∧ execCrcbuf s = .next (raise .lengthRange s)) := by
  unfold execCrcbuf
  split
  · rename_i h
    exact .inl ⟨(flenInRange_iff s).mp h, rfl⟩
  · rename_i h
    exact .inr ⟨by rw [flenInRange_iff] at h; omega, rfl⟩

theorem execSeal_cases (s : State) :
    (s.len.toNat ≤ s.cfg.maxSeg.toNat ∧
      execSeal s = .next (succeed { s with csum := pduChecksum s, crc := pduChecksum s })) ∨
    (s.cfg.maxSeg.toNat < s.len.toNat ∧ execSeal s = .next (raise .lengthRange s)) := by
  unfold execSeal
  split
  · rename_i h
    exact .inl ⟨(lenInRange_iff s).mp h, rfl⟩
  · rename_i h
    exact .inr ⟨by rw [lenInRange_iff] at h; omega, rfl⟩

theorem execValidate_cases (s : State) :
    (s.len = 0 ∧ execValidate s = .next (finish 0 true false s)) ∨
    (s.len ≠ 0 ∧ s.len.toNat ≤ s.cfg.maxSeg.toNat ∧ pduChecksum s = s.csum ∧
      execValidate s = .next (finish 0 true false { s with crc := pduChecksum s })) ∨
    (s.len ≠ 0 ∧ s.len.toNat ≤ s.cfg.maxSeg.toNat ∧ pduChecksum s ≠ s.csum ∧
      execValidate s = .next (raise .checksumMismatch { s with crc := pduChecksum s })) ∨
    (s.len ≠ 0 ∧ s.cfg.maxSeg.toNat < s.len.toNat ∧ execValidate s = .next (raise .lengthRange s)) := by
  unfold execValidate
  split
  · exact .inl ⟨‹_›, rfl⟩
  · split
    · rename_i h
      rw [lenInRange_iff] at h
      split
      · exact .inr (.inl ⟨‹_›, h, ‹_›, rfl⟩)
      · exact .inr (.inr (.inl ⟨‹_›, h, ‹_›, rfl⟩))
    · rename_i h
      rw [lenInRange_iff] at h
      exact .inr (.inr (.inr ⟨‹_›, by omega, rfl⟩))

theorem execEncode_cases (s : State) :
    (s.len.toNat ≤ s.cfg.maxSeg.toNat ∧
      execEncode s = .next (succeed { s with
        frm := memWrite s.frm 0 (encodePdu s.cfg.endian (heldPdu s)),
        flen := BitVec.ofNat 17 (ovh + s.len.toNat) })) ∨
    (s.cfg.maxSeg.toNat < s.len.toNat ∧ execEncode s = .next (raise .lengthRange s)) := by
  unfold execEncode
  split
  · rename_i h
    exact .inl ⟨(lenInRange_iff s).mp h, rfl⟩
  · rename_i h
    exact .inr ⟨by rw [lenInRange_iff] at h; omega, rfl⟩

/-- The declared length of the frame a state holds, from its two length bytes (R82). -/
def declaredLength (s : State) : Nat := deserNat s.cfg.endian (memRead s.frm 8 2)

theorem declaredLength_lt (s : State) : declaredLength s < 65536 := by
  have h := deserNat_lt s.cfg.endian (memRead s.frm 8 2)
  rw [memRead_length] at h
  simpa [declaredLength] using h

/-- The PDU a state's frame declares (R82, R84). -/
def framePdu (s : State) : Pdu :=
  { total := deser 32 s.cfg.endian (memRead s.frm 0 4),
    seq := deser 32 s.cfg.endian (memRead s.frm 4 4),
    len := deser 16 s.cfg.endian (memRead s.frm 8 2),
    payload := memRead s.frm 10 (declaredLength s),
    csum := deser 16 s.cfg.endian (memRead s.frm (10 + declaredLength s) 2) }

theorem framePdu_len (s : State) : (framePdu s).len.toNat = declaredLength s :=
  deser_toNat_two _ (memRead_length _ _ _)

/-- What `decodeFrame` answers on the frame a state holds. -/
theorem decodeFrame_heldFrame (s : State) :
    decodeFrame s.cfg.endian (heldFrame s) =
      if 12 ≤ s.flen.toNat ∧ declaredLength s + 12 ≤ s.flen.toNat then
        .ok (framePdu s, decide (s.flen.toNat > declaredLength s + 12))
      else .error .malformedPdu := by
  have hlen : (heldFrame s).length = s.flen.toNat := memRead_length _ _ _
  by_cases h12 : 12 ≤ s.flen.toNat
  · have hsl : slice (heldFrame s) 8 10 = memRead s.frm 8 2 := by
      simpa [heldFrame] using slice_memRead s.frm 0 s.flen.toNat 8 10 (by omega)
    have hdl : (deser 16 s.cfg.endian (slice (heldFrame s) 8 10)).toNat = declaredLength s := by
      rw [hsl]
      exact deser_toNat_two _ (memRead_length _ _ _)
    rcases decodeFrame_cases s.cfg.endian (heldFrame s) with ⟨h, h'⟩ | ⟨-, h, h'⟩
    · rw [hdl, hlen] at h
      rw [h', if_neg (by omega)]
    · rw [hdl, hlen] at h
      rw [h', if_pos ⟨h12, h⟩, hdl, hsl, hlen]
      have h0 : slice (heldFrame s) 0 4 = memRead s.frm 0 4 := by
        simpa [heldFrame] using slice_memRead s.frm 0 s.flen.toNat 0 4 (by omega)
      have h4 : slice (heldFrame s) 4 8 = memRead s.frm 4 4 := by
        simpa [heldFrame] using slice_memRead s.frm 0 s.flen.toNat 4 8 (by omega)
      have h10 : slice (heldFrame s) 10 (10 + declaredLength s) = memRead s.frm 10 (declaredLength s) := by
        simpa [heldFrame] using slice_memRead s.frm 0 s.flen.toNat 10 (10 + declaredLength s) (by omega)
      have hc : slice (heldFrame s) (10 + declaredLength s) (12 + declaredLength s)
          = memRead s.frm (10 + declaredLength s) 2 := by
        have := slice_memRead s.frm 0 s.flen.toNat (10 + declaredLength s) (12 + declaredLength s) (by omega)
        rwa [show 12 + declaredLength s - (10 + declaredLength s) = 2 by omega, Nat.zero_add] at this
      rw [h0, h4, h10, hc]
      rfl
  · rcases decodeFrame_cases s.cfg.endian (heldFrame s) with ⟨-, h'⟩ | ⟨h, -, -⟩
    · rw [h', if_neg (by omega)]
    · omega

theorem execDecode_cases (s : State) :
    (fcap s.cfg < s.flen.toNat ∧ execDecode s = .next (raise .lengthRange s)) ∨
    (s.flen.toNat ≤ fcap s.cfg ∧ (s.flen.toNat < 12 ∨ declaredLength s + 12 > s.flen.toNat) ∧
      execDecode s = .next (raise .malformedPdu s)) ∨
    (s.flen.toNat ≤ fcap s.cfg ∧ 12 ≤ s.flen.toNat ∧ declaredLength s + 12 ≤ s.flen.toNat ∧
      execDecode s = .next (finish 0 false (decide (s.flen.toNat > declaredLength s + 12)) (loadPdu (framePdu s) s))) := by
  unfold execDecode
  split
  · rename_i h
    rw [flenInRange_iff] at h
    rw [decodeFrame_heldFrame]
    by_cases hc : 12 ≤ s.flen.toNat ∧ declaredLength s + 12 ≤ s.flen.toNat
    · exact .inr (.inr ⟨h, hc.1, hc.2, by rw [if_pos hc]⟩)
    · exact .inr (.inl ⟨h, by omega, by rw [if_neg hc]⟩)
  · rename_i h
    rw [flenInRange_iff] at h
    exact .inl ⟨by omega, rfl⟩

/-- Every way a command can end on state `s`, with the state it leaves. -/
inductive Completion (s : State) : Instr → State → Prop where
  | nop : Completion s .nop (succeed s)
  | crcinit : Completion s .crcinit (succeed { s with crc := crcInit })
  | crcbyte (b : Byte) : Completion s (.crcbyte b) (succeed { s with crc := crcByte s.crc b })
  | crcbuf (h : s.flen.toNat ≤ fcap s.cfg) :
      Completion s .crcbuf (succeed { s with crc := checksum16 (heldFrame s) })
  | crcbufRange (h : fcap s.cfg < s.flen.toNat) : Completion s .crcbuf (raise .lengthRange s)
  | sealPdu (h : s.len.toNat ≤ s.cfg.maxSeg.toNat) :
      Completion s .sealPdu (succeed { s with csum := pduChecksum s, crc := pduChecksum s })
  | sealRange (h : s.cfg.maxSeg.toNat < s.len.toNat) : Completion s .sealPdu (raise .lengthRange s)
  | encode (h : s.len.toNat ≤ s.cfg.maxSeg.toNat) :
      Completion s .encode (succeed { s with
        frm := memWrite s.frm 0 (encodePdu s.cfg.endian (heldPdu s)),
        flen := BitVec.ofNat 17 (ovh + s.len.toNat) })
  | encodeRange (h : s.cfg.maxSeg.toNat < s.len.toNat) : Completion s .encode (raise .lengthRange s)
  | decode (h : s.flen.toNat ≤ fcap s.cfg) (h12 : 12 ≤ s.flen.toNat) (hl : declaredLength s + 12 ≤ s.flen.toNat) :
      Completion s .decode (finish 0 false (decide (s.flen.toNat > declaredLength s + 12)) (loadPdu (framePdu s) s))
  | decodeMalformed (h : s.flen.toNat ≤ fcap s.cfg) (hm : s.flen.toNat < 12 ∨ declaredLength s + 12 > s.flen.toNat) :
      Completion s .decode (raise .malformedPdu s)
  | decodeRange (h : fcap s.cfg < s.flen.toNat) : Completion s .decode (raise .lengthRange s)
  | validateEmpty (h : s.len = 0) : Completion s .validate (finish 0 true false s)
  | validate (h0 : s.len ≠ 0) (h : s.len.toNat ≤ s.cfg.maxSeg.toNat) (hc : pduChecksum s = s.csum) :
      Completion s .validate (finish 0 true false { s with crc := pduChecksum s })
  | validateMismatch (h0 : s.len ≠ 0) (h : s.len.toNat ≤ s.cfg.maxSeg.toNat) (hc : pduChecksum s ≠ s.csum) :
      Completion s .validate (raise .checksumMismatch { s with crc := pduChecksum s })
  | validateRange (h0 : s.len ≠ 0) (h : s.cfg.maxSeg.toNat < s.len.toNat) :
      Completion s .validate (raise .lengthRange s)
  | clr : Completion s .clr
      (succeed { s with total := 0, seq := 0, len := 0, csum := 0, flen := 0, crc := crcInit })

/-- Every command answers a next state, in one of the ways of `Completion`. -/
theorem exec_completes (i : Instr) (s : State) : ∃ t, exec i s = .next t ∧ Completion s i t := by
  cases i
  case nop => exact ⟨_, rfl, .nop⟩
  case crcinit => exact ⟨_, rfl, .crcinit⟩
  case crcbyte b => exact ⟨_, rfl, .crcbyte b⟩
  case crcbuf =>
    rcases execCrcbuf_cases s with ⟨a, h⟩ | ⟨a, h⟩
    · exact ⟨_, h, .crcbuf a⟩
    · exact ⟨_, h, .crcbufRange a⟩
  case sealPdu =>
    rcases execSeal_cases s with ⟨a, h⟩ | ⟨a, h⟩
    · exact ⟨_, h, .sealPdu a⟩
    · exact ⟨_, h, .sealRange a⟩
  case encode =>
    rcases execEncode_cases s with ⟨a, h⟩ | ⟨a, h⟩
    · exact ⟨_, h, .encode a⟩
    · exact ⟨_, h, .encodeRange a⟩
  case decode =>
    rcases execDecode_cases s with ⟨a, h⟩ | ⟨a, b, h⟩ | ⟨a, b, c, h⟩
    · exact ⟨_, h, .decodeRange a⟩
    · exact ⟨_, h, .decodeMalformed a b⟩
    · exact ⟨_, h, .decode a b c⟩
  case validate =>
    rcases execValidate_cases s with ⟨a, h⟩ | ⟨a, b, c, h⟩ | ⟨a, b, c, h⟩ | ⟨a, b, h⟩
    · exact ⟨_, h, .validateEmpty a⟩
    · exact ⟨_, h, .validate a b c⟩
    · exact ⟨_, h, .validateMismatch a b c⟩
    · exact ⟨_, h, .validateRange a b⟩
  case clr => exact ⟨_, rfl, .clr⟩

/-- The inversion lemma of `exec`: what it answers is one of the ways of `Completion`. -/
theorem completion_of_exec {i : Instr} {s t : State} (h : exec i s = .next t) : Completion s i t := by
  obtain ⟨t', h', hc⟩ := exec_completes i s
  rw [h'] at h
  simp only [Host.Outcome.next.injEq] at h
  exact h ▸ hc

/-! ### Host accesses -/

theorem hostRead_cases (space : BitVec 2) (index : Index) (s : State) :
    hostRead space index s = faultRead s ∨
    ∃ l, locate s.cfg space index = some l ∧ (s.busy = true → readableWhileBusy l = true) ∧
      hostRead space index s = answerRead (readLocation l s) s := by
  unfold hostRead
  split
  · exact .inl rfl
  · split
    · exact .inl rfl
    · rename_i l hl h
      refine .inr ⟨l, hl, fun hb => ?_, rfl⟩
      simpa [hb] using h

theorem hostWrite_cases (space : BitVec 2) (index : Index) (v : Word) (s : State) :
    hostWrite space index v s = dropWrite s ∨
    ∃ l, locate s.cfg space index = some l ∧ s.busy = false ∧ hostWrite space index v s = writeLocation l v s := by
  unfold hostWrite
  split
  · exact .inl rfl
  · split
    · exact .inl rfl
    · rename_i l hl h
      exact .inr ⟨l, hl, by simpa using h, rfl⟩

/-- A located byte lies inside its buffer. -/
theorem locate_bound {c : Config} {space : BitVec 2} {index : Index} {l : Location} (h : locate c space index = some l) :
    (∀ i, l = .pay i → i < paySize c) ∧ (∀ i, l = .frm i → i < fcap c) := by
  unfold locate at h
  split at h
  · obtain ⟨r, -, rfl⟩ := Option.map_eq_some_iff.mp h
    simp
  · split at h
    · simp only [Option.some.injEq] at h
      subst h
      simp_all
    · simp at h
  · split at h
    · simp only [Option.some.injEq] at h
      subst h
      simp_all
    · simp at h
  · simp at h

/-! ### The step -/

/-- Every word, legal or not, is completed. -/
theorem execWord_next (w : Word) (s : State) : ∃ t, execWord w s = .next t := by
  unfold execWord
  split
  · exact (exec_completes _ s).imp fun _ h => h.1
  · exact ⟨_, rfl⟩

theorem blockTurn_of_busy {s : State} (h : s.busy = true) : blockTurn s = execWord s.pend s := by
  simp [blockTurn, h]

theorem blockTurn_of_idle {s : State} (h : s.busy = false) : blockTurn s = .fault .blockHasNoStep := by
  simp [blockTurn, h]

theorem step_of_cons {s : State} {e : Event} {es : List Event} (h : s.script = e :: es) :
    step s = takeEvent e { s with script := es } := by
  simp [step, h]

/-- Whoever schedules it, the block's turn is `blockTurn` on the state with the rest of the script. -/
theorem step_of_blockMoves {s : State} {rest : List Event} (h : s.BlockMoves rest) :
    step s = blockTurn { s with script := rest } := by
  rcases h with h | ⟨h, rfl⟩
  · simp [step, h, takeEvent]
  · cases s
    simp only at h
    subst h
    rfl

end Sys2Proof.Machine
end

