-- ==== Sys2Proof/Laws/PerInstr.lean ====
section
/-! SUPPORT. The family of statements made per instruction: the word of every command is legal by the spec's closed form,
and its opcode field is its opcode (30_encoding.md R67, R68, R70). -/

namespace Sys2Proof.Laws.LegalWord

/-- The word of the command passes the checks of R70 and carries the command's opcode in bits 7:0. -/
def Statement (i : Sys2Proof.Instr) : Prop :=
  i.wellFormed = true → Sys2Proof.legalWord (Sys2Proof.encode i) = true ∧
    Sys2Proof.opField (Sys2Proof.encode i) = i.opcode

theorem nop : Statement .nop := by unfold Statement; decide
theorem crcinit : Statement .crcinit := by unfold Statement; decide
theorem crcbyte (imm8 : Sys2Proof.Byte) : Statement (.crcbyte imm8) := by
  revert imm8
  unfold Statement
  decide
theorem crcbuf : Statement .crcbuf := by unfold Statement; decide
theorem sealPdu : Statement .sealPdu := by unfold Statement; decide
theorem encode : Statement .encode := by unfold Statement; decide
theorem decode : Statement .decode := by unfold Statement; decide
theorem validate : Statement .validate := by unfold Statement; decide
theorem clr : Statement .clr := by unfold Statement; decide

end Sys2Proof.Laws.LegalWord
end

