-- ==== Sys2Proof/Tests/Slice0.lean ====
section
/-! SUPPORT. Tests of one step each, with expected values from spec/95_test_vectors.md (the vector is named in each
docstring), and for every obligation that has hypotheses a witness that meets them. -/

namespace Sys2Proof.Tests

set_option Elab.async false

open Sys2Proof Sys2Proof.Machine

/-! ### Helpers -/

/-- The state of a next outcome; the reset state where the machine stopped. -/
def after : Result → State
  | .next t => t
  | .fault _ => State.reset
  | .refused _ => State.reset

/-- The outcome is a next state. -/
def isNext : Result → Bool
  | .next _ => true
  | .fault _ => false
  | .refused _ => false

theorem next_after {r : Result} (h : isNext r = true) : r = .next (after r) := by
  cases r <;> simp_all [isNext, after]

/-- A buffer that holds the given bytes from index 0 on. -/
def buffer (bs : List Byte) : Memory := memWrite [] 0 bs

/-- The build of the vectors with the other byte order. -/
def bigBuild : Config := { maxSeg := 16, endian := .big }

/-- The held PDU of V10 and V11 (their registers are the same), not yet sealed. -/
def held : State := { State.reset with total := 10, seq := 1, len := 4, pay := buffer [0x41, 0x42, 0x43, 0x44] }

/-- The held PDU of V16. -/
def held16 : State :=
  { State.reset with total := 0x01020304, seq := 0xA1B2C3D4, len := 3, pay := buffer [0xDE, 0xAD, 0xBE], csum := 0x80F9 }

/-- The registers before a `DECODE` of 95_test_vectors.md section 2.4, and the received bytes. -/
def received (flen : Index) (bs : List Byte) : State :=
  { State.reset with
    total := 0x11111111, seq := 0x22222222, len := 2, csum := 0x3333, pay := buffer [0x55, 0x66], crc := 0x4444,
    flen := flen, frm := buffer bs }

/-- The little-endian frame of V10. -/
def frameV10 : List Byte :=
  [0x0A, 0x00, 0x00, 0x00, 0x01, 0x00, 0x00, 0x00, 0x04, 0x00, 0x41, 0x42, 0x43, 0x44, 0x1D, 0xE6]

/-- The state of P5: `SEAL` pending on the PDU of V10. -/
def pending : State := { held with pend := 0x00000004, busy := true, done := false }

/-! ### Well-formedness: each check refuses a word -/

/-- R67: bits 31:16 not zero, even for `CRCBYTE` (V35). -/
theorem test_wf_upper_bits : upperBitsLegal 0x00010002 = false ∧ legalWord 0x00010002 = false := by decide
/-- R70: reserved opcode (V35). -/
theorem test_wf_opcode : opcodeLegal 0x00000009 = false ∧ legalWord 0x00000009 = false := by decide
/-- R70: `CRCINIT` with non-zero bits 15:8 (V35). -/
theorem test_wf_operand : operandLegal 0x00000101 = false ∧ legalWord 0x00000101 = false := by decide
/-- R70: the three checks are separate; each of those words passes the other two. -/
theorem test_wf_checks_are_separate :
    (opcodeLegal 0x00010002 && operandLegal 0x00010002) = true ∧
    (upperBitsLegal 0x00000009 && operandLegal 0x00000009) = true ∧
    (upperBitsLegal 0x00000101 && opcodeLegal 0x00000101) = true ∧
    legalWord 0x0000FF02 = true ∧ legalWord 0x00000008 = true := by decide

/-! ### Decoding: one word of every constructor, bit by bit from R67 and R68 -/

theorem test_decode_nop : decode 0b00000000000000000000000000000000 = .command .nop := by decide
theorem test_decode_crcinit : decode 0b00000000000000000000000000000001 = .command .crcinit := by decide
theorem test_decode_crcbyte : decode 0b00000000000000000100000100000010 = .command (.crcbyte 0x41) := by decide
theorem test_decode_crcbuf : decode 0b00000000000000000000000000000011 = .command .crcbuf := by decide
theorem test_decode_seal : decode 0b00000000000000000000000000000100 = .command .sealPdu := by decide
theorem test_decode_encode : decode 0b00000000000000000000000000000101 = .command .encode := by decide
theorem test_decode_decode : decode 0b00000000000000000000000000000110 = .command .decode := by decide
theorem test_decode_validate : decode 0b00000000000000000000000000000111 = .command .validate := by decide
theorem test_decode_clr : decode 0b00000000000000000000000000001000 = .command .clr := by decide

/-- The encoder gives the words program P3 and R68 list. -/
theorem test_encode_words :
    [Instr.nop, .crcinit, .crcbyte 0x39, .crcbuf, .sealPdu, .encode, .decode, .validate, .clr].map encode =
      [0, 1, 0x00003902, 3, 4, 5, 6, 7, 8] := by decide

/-- The host's table interface, an unused row and a word that is too long among the inputs. -/
theorem test_decode_table_word :
    decodeTableWord 32 0x00004102 = some (.crcbyte 0x41) ∧ decodeTableWord 32 8 = some .clr ∧
    decodeTableWord 32 9 = none ∧ decodeTableWord 40 0 = none := by decide

/-- A placed word is what the very next step after reset runs, for every command: `DONE` is then set, with the error code
the command has on the reset state (`DECODE` with `FLEN` = 0: `MalformedPdu`, V20). -/
theorem test_fetch_word_runs :
    [0, 1, 0x4102, 3, 4, 5, 6, 7, 8].map (fun w =>
      let t := after (step (State.reset.withFetchWord 32 w))
      (t.done, t.errcode)) =
    [(true, 0), (true, 0), (true, 0), (true, 0), (true, 0), (true, 0), (true, 1), (true, 0), (true, 0)] := by
  decide +kernel

/-- V9 through the step: `CRCBYTE 0x41` placed after reset gives `CRC` = 0xB915. -/
theorem test_fetch_word_crcbyte : (after (step (State.reset.withFetchWord 32 0x00004102))).crc = 0xB915 := by
  decide +kernel

/-! ### The checksum functions -/

/-- V2: the register after each byte of "123456789". -/
theorem test_crc_running :
    [0x31, 0x32, 0x33, 0x34, 0x35, 0x36, 0x37, 0x38, 0x39].scanl crcByte 0xFFFF =
      [0xFFFF, 0xC782, 0x3DBA, 0x5BCE, 0x5349, 0x4560, 0x2EF4, 0x7718, 0xA12B, 0x29B1] := by decide +kernel
/-- V5: the bits of `crc_byte(0xFFFF, 0x41)`. -/
theorem test_crc_bits :
    (List.range 9).map (fun n => crcBits n 0xBEFF) =
      [0xBEFF, 0x6DDF, 0xDBBE, 0xA75D, 0x5E9B, 0xBD36, 0x6A4D, 0xD49A, 0xB915] := by decide +kernel
/-- V7: the byte step from other registers. -/
theorem test_crc_byte :
    crcByte 0x8000 0x00 = 0x9188 ∧ crcByte 0x0001 0x00 = 0x0100 ∧ crcByte 0x1234 0x56 = 0x3C40 ∧
    crcByte 0x1D0F 0x00 = 0xCC9C := by decide +kernel

/-! ### The commands, one step each -/

/-- V34: `NOP` after a `VALIDATE` that left `STATUS` = 0x0A. -/
theorem test_nop : statusWord (after (exec .nop { held with valid := true, done := true })) = 0x02 := by decide +kernel
/-- R106's example. -/
theorem test_crcinit : (after (exec .crcinit { held with crc := 0x1234 })).crc = 0xFFFF := by decide +kernel
/-- V9: `CRCBYTE` continues, it does not restart. -/
theorem test_crcbyte : (after (exec (.crcbyte 0x56) { held with crc := 0x1234 })).crc = 0x3C40 := by decide +kernel
/-- V10: `CRCBUF` over the 16 bytes of the little-endian frame. -/
theorem test_crcbuf : (after (exec .crcbuf (received 16 frameV10))).crc = 0x914F := by decide +kernel
/-- V9: `FLEN` = `FCAP` + 1 ends with `LengthRange`, `CRC` unchanged. -/
theorem test_crcbuf_range :
    statusWord (after (exec .crcbuf (received 29 frameV10))) = 0x06 ∧
    (after (exec .crcbuf (received 29 frameV10))).errcode = 3 ∧
    (after (exec .crcbuf (received 29 frameV10))).crc = 0x4444 := by decide +kernel
/-- V10 and V11: the checksum value depends on `ENDIAN`. -/
theorem test_seal :
    (after (exec .sealPdu held)).csum = 0xE61D ∧ (after (exec .sealPdu held)).crc = 0xE61D ∧
    (after (exec .sealPdu { held with cfg := bigBuild })).csum = 0xA10A := by decide +kernel
/-- V12: the sealed acknowledgment of sequence number 7. -/
theorem test_seal_ack :
    (after (exec .sealPdu { State.reset with seq := 7 })).csum = 0x2978 ∧
    (after (exec .sealPdu { State.reset with seq := 7, cfg := bigBuild })).csum = 0x64A9 := by decide +kernel
/-- V16: the frame of distinct bytes, and the big-endian one. -/
theorem test_encode :
    memRead (after (exec .encode held16)).frm 0 15 =
      [0x04, 0x03, 0x02, 0x01, 0xD4, 0xC3, 0xB2, 0xA1, 0x03, 0x00, 0xDE, 0xAD, 0xBE, 0xF9, 0x80] ∧
    memRead (after (exec .encode { held16 with cfg := bigBuild, csum := 0xBD20 })).frm 0 15 =
      [0x01, 0x02, 0x03, 0x04, 0xA1, 0xB2, 0xC3, 0xD4, 0x00, 0x03, 0xDE, 0xAD, 0xBE, 0xBD, 0x20] ∧
    (after (exec .encode held16)).flen = 15 := by decide +kernel
/-- V33: bytes beyond the new frame are left over from the old one. -/
theorem test_encode_stale :
    memRead (after (exec .encode { held with len := 0, csum := 0x3058, frm := buffer frameV10 })).frm 0 16 =
      [0x0A, 0x00, 0x00, 0x00, 0x01, 0x00, 0x00, 0x00, 0x00, 0x00, 0x58, 0x30, 0x43, 0x44, 0x1D, 0xE6] := by
  decide +kernel
/-- V23: an excess byte is ignored and reported. -/
theorem test_decode_trail :
    let t := after (exec .decode (received 13 [0, 0, 0, 0, 5, 0, 0, 0, 0, 0, 0xAB, 0xCD, 0xEE]))
    (t.total, t.seq, t.len, t.csum, statusWord t, memRead t.pay 0 2) = (0, 5, 0, 0xCDAB, 0x12, [0x55, 0x66]) := by
  decide +kernel
/-- V24: the sum `l + 12` does not wrap. -/
theorem test_decode_no_wrap :
    let t := after (exec .decode (received 12 [0, 0, 0, 0, 5, 0, 0, 0, 0xFF, 0xFF, 0xAB, 0xCD]))
    (t.errcode, t.total, t.seq, t.len, t.csum, t.crc, statusWord t) =
      (1, 0x11111111, 0x22222222, 2, 0x3333, 0x4444, 0x06) := by decide +kernel
/-- V14: all bits of the first payload byte flipped. -/
theorem test_validate_mismatch :
    let t := after (exec .validate { held with csum := 0xE61D, pay := buffer [0xBE, 0x42, 0x43, 0x44] })
    (statusWord t, t.errcode, t.crc, t.csum) = (0x06, 2, 0xADBE, 0xE61D) := by decide +kernel
/-- V28: an empty PDU is valid whatever its checksum, and `CRC` is untouched, also with `MAXSEG` = 0. -/
theorem test_validate_empty :
    let t := after (exec .validate { State.reset with seq := 1, crc := 0x1234, cfg := { maxSeg := 0, endian := .little } })
    (statusWord t, t.errcode, t.crc) = (0x0A, 0, 0x1234) := by decide +kernel
/-- V34: `CLR`, with `HSFAULT` set before. -/
theorem test_clr :
    let t := after (exec .clr { held with csum := 0xE61D, flen := 16, crc := 0xE61D, hsfault := true })
    (t.total, t.seq, t.len, t.csum, t.flen) = (0, 0, 0, 0, 0) ∧
      (t.crc, statusWord t, memRead t.pay 0 4) = (0xFFFF, 0x22, [0x41, 0x42, 0x43, 0x44]) := by decide +kernel
/-- V35: an illegal word. -/
theorem test_illegal_word :
    let t := after (execWord 0x000000FF (received 16 frameV10))
    (t.errcode, statusWord t, t.crc, t.total) = (4, 0x06, 0x4444, 0x11111111) := by decide +kernel

/-! ### The host port -/

/-- V32: writes keep the low bits. -/
theorem test_host_write_truncates :
    (hostWrite spaceReg 6 0x00012345 State.reset).len = 0x2345 ∧
    (hostWrite spaceReg 8 0xFFFFFFFF State.reset).flen = 0x1FFFF ∧
    (hostWrite spaceReg 9 0 State.reset) = State.reset := by decide +kernel
/-- V37: `CFG` for both byte orders. -/
theorem test_cfg_word : cfgWord Config.build = 0x00000010 ∧ cfgWord bigBuild = 0x00010010 := by decide
/-- V36: the edges of the buffers; a write just inside and one just outside. -/
theorem test_buffer_edges :
    (hostWrite spacePay 15 0x7F State.reset).hsfault = false ∧ Memory.get (hostWrite spacePay 15 0x7F State.reset).pay 15 = 0x7F ∧
    hostWrite spacePay 16 0 State.reset = { State.reset with hsfault := true } ∧
    (hostRead spaceFrm 27 State.reset).hsfault = false ∧ (hostRead spaceFrm 28 State.reset).hsfault = true ∧
    (hostRead spaceReg 10 State.reset).hsfault = true ∧ (hostRead 3 0 State.reset).hsfault = true := by decide +kernel
/-- V36: a second `CMD` write while busy is dropped; `STATUS` can be read. -/
theorem test_busy :
    hostWrite spaceReg 1 0x00000008 pending = { pending with hsfault := true } ∧
    (hostRead spaceReg 2 pending).rdata = 0x00000001 ∧ (hostRead spaceReg 2 pending).hsfault = false ∧
    (hostRead spaceReg 9 pending).hsfault = true := by decide +kernel
/-- V37: reset abandons the pending command. -/
theorem test_reset_cancels :
    (applyReset pending).busy = false ∧ (applyReset pending).csum = 0 ∧ (applyReset pending).crc = 0xFFFF ∧
    statusWord (applyReset pending) = 0 ∧ memRead (applyReset pending).pay 0 4 = [0x41, 0x42, 0x43, 0x44] := by
  decide +kernel
/-- R73, P3: the accesses of `LOADFRM 0x31 0x32` and of `CMD CRCBYTE 0x39`. -/
theorem test_script_lines :
    scriptEvents [.loadFrm [0x31, 0x32], .cmd (.crcbyte 0x39)] =
      [.hostWrite 2 0 0x31, .hostWrite 2 1 0x32, .hostWrite 0 8 2, .hostWrite 0 1 0x00003902] := by decide +kernel
/-- R44: a write keeps the canonical form, and writing 0 removes the entry. -/
theorem test_memory :
    Memory.set (buffer [0x41, 0x42]) 0 0 = [(1, 0x42)] ∧ Memory.set [(1, 0x42)] 0 0x41 = buffer [0x41, 0x42] ∧
    Memory.wf [(1, 0x42), (0, 0x41)] = false ∧ Memory.wf [(0, 0)] = false := by decide +kernel

/-! ### Witnesses: a state or operands for the hypotheses of each obligation -/

/-- `held` with its payload at the limit `LEN` = `MAXSEG`, and one above it. -/
def atLimit (len : Half) : State := { held with len := len, csum := 0x1234 }

/-- A frame of declared length `l` in a buffer of `flen` bytes. -/
def declared (flen : Index) (l : Byte) : State := received flen [0, 0, 0, 0, 5, 0, 0, 0, l, 0, 0xAB, 0xCD]

theorem witness_DecodeAndEncodeAgree :
    (Instr.crcbyte 0xFF).wellFormed = true ∧ decode 0x0000FF02 = .command (.crcbyte 0xFF) := by decide
theorem witness_DecoderFollowsOpcodeMap :
    opcodeMap.map (fun row => decide ((0x0000FF02 : Word) &&& row.mask = row.pattern)) =
      [false, false, true, false, false, false, false, false, false] ∧
    opcodeMap.map (fun row => decide ((0x00000008 : Word) &&& row.mask = row.pattern)) =
      [false, false, false, false, false, false, false, false, true] := by decide
theorem witness_IllegalWordsAreExactlyThese :
    decode 0x00000009 = .illegal .reservedOpcode ∧ decode 0x00010000 = .illegal .upperBitsNotZero ∧
    decode 0x00000100 = .illegal .operandNotZero ∧ held.busy = false := by decide +kernel
theorem witness_StepRunsTheDecodedCommand :
    pending.busy = true ∧ decode pending.pend = .command .sealPdu ∧ pending.BlockMoves [] ∧
    State.BlockMoves { pending with script := [.blockTurn, .reset] } [.reset] :=
  ⟨rfl, by decide +kernel, .inr ⟨rfl, rfl⟩, .inl rfl⟩
theorem witness_IllegalWordCompletesWithCodeFour :
    State.BlockMoves { pending with pend := 0x00000109 } [] ∧ decode 0x00000109 = .illegal .reservedOpcode ∧
    State.errcode { held with errcode := 4 } = 4 :=
  ⟨.inr ⟨rfl, rfl⟩, by decide, rfl⟩
theorem witness_StepIsOneOfTheFourSteps :
    isNext (step { held with script := [.hostRead 0 2] }) = true ∧
    isNext (step { held with script := [.hostWrite 0 4 1] }) = true ∧
    isNext (step { held with script := [.reset] }) = true ∧ isNext (step pending) = true ∧
    isNext (step { pending with script := [.blockTurn] }) = true := by decide +kernel
theorem witness_StepStopsOnlyWhenTheBlockIsIdle :
    (held.BlockMoves [] ∧ held.busy = false) ∧
    State.BlockMoves { held with script := [.blockTurn] } [] ∧
    ¬ ((∃ rest, pending.BlockMoves rest) ∧ pending.busy = false) :=
  ⟨⟨.inr ⟨rfl, rfl⟩, rfl⟩, .inl rfl, fun h => absurd h.2 (by decide +kernel)⟩
theorem witness_EveryCommandFinishes :
    (after (exec .decode (declared 11 0))).errcode = 1 ∧ (after (exec .sealPdu (atLimit 17))).errcode = 3 := by
  decide +kernel
theorem witness_ErrorsArePrecise :
    (∃ t, exec .validate (atLimit 16) = .next t ∧ t.errcode = 2) ∧
    (∃ t, exec .decode (declared 12 1) = .next t ∧ t.errcode = 1) :=
  ⟨⟨_, next_after (by decide +kernel), by decide +kernel⟩, ⟨_, next_after (by decide +kernel), by decide +kernel⟩⟩
theorem witness_ErrorCodesBelongToTheirCommands :
    (∃ t, exec .encode (atLimit 17) = .next t ∧ t.errcode = 3) ∧
    (∃ t, execWord 0x00000009 held = .next t ∧ t.errcode = 4) ∧
    (∃ t, execWord 0x00000008 held = .next t ∧ t.errcode = 0) :=
  ⟨⟨_, next_after (by decide +kernel), by decide +kernel⟩, ⟨_, next_after (by decide +kernel), by decide +kernel⟩,
    ⟨_, next_after (by decide +kernel), by decide +kernel⟩⟩
theorem witness_ResultFlagsBelongToTheirCommands :
    (∃ t, exec .validate { held with csum := 0xE61D } = .next t ∧ t.valid = true) ∧
    (∃ t, exec .decode (declared 13 0) = .next t ∧ t.trail = true) ∧
    (∃ t, exec .decode (declared 12 0) = .next t ∧ t.errcode = 0 ∧ t.trail = false) :=
  ⟨⟨_, next_after (by decide +kernel), by decide +kernel⟩, ⟨_, next_after (by decide +kernel), by decide +kernel⟩,
    ⟨_, next_after (by decide +kernel), by decide +kernel⟩⟩
theorem witness_CrcbufIsTheRawChecksum :
    (received 28 []).flen.toNat ≤ fcap (received 28 []).cfg ∧ (received 29 []).flen.toNat > fcap (received 29 []).cfg := by
  decide +kernel
theorem witness_SealStoresThePduChecksum :
    (atLimit 16).len.toNat ≤ (atLimit 16).cfg.maxSeg.toNat ∧ (atLimit 17).len.toNat > (atLimit 17).cfg.maxSeg.toNat := by
  decide +kernel
theorem witness_ValidateEvaluatesThePredicate :
    (atLimit 0).len = 0 ∧ ((atLimit 17).len ≠ 0 ∧ (atLimit 17).len.toNat > (atLimit 17).cfg.maxSeg.toNat) ∧
    ((atLimit 16).len ≠ 0 ∧ (atLimit 16).len.toNat ≤ (atLimit 16).cfg.maxSeg.toNat ∧
      pduChecksum (atLimit 16) ≠ (atLimit 16).csum) ∧
    (held.len ≠ 0 ∧ held.len.toNat ≤ held.cfg.maxSeg.toNat ∧
      pduChecksum { held with csum := 0xE61D } = State.csum { held with csum := 0xE61D }) ∧
    isNext (exec .validate held) = true := by decide +kernel
theorem witness_EncodeSerialisesTheHeldPdu :
    (Memory.wf (atLimit 16).frm = true ∧ (atLimit 16).len.toNat ≤ (atLimit 16).cfg.maxSeg.toNat ∧
      (atLimit 16).len.toNat = (atLimit 16).cfg.maxSeg.toNat) ∧
    (atLimit 17).len.toNat > (atLimit 17).cfg.maxSeg.toNat := by decide +kernel
theorem witness_DecodeLoadsTheFrame :
    (Memory.wf (declared 28 16).pay = true ∧ (declared 28 16).flen.toNat ≤ fcap (declared 28 16).cfg ∧
      12 ≤ (declared 28 16).flen.toNat ∧
      16 = deserNat (declared 28 16).cfg.endian (memRead (declared 28 16).frm 8 2) ∧
      16 + 12 ≤ (declared 28 16).flen.toNat) ∧
    (declared 29 16).flen.toNat > fcap (declared 29 16).cfg ∧ (declared 11 0).flen.toNat < 12 ∧
    deserNat (declared 28 17).cfg.endian (memRead (declared 28 17).frm 8 2) + 12 > (declared 28 17).flen.toNat := by
  decide +kernel
theorem witness_DecodeRejectsMalformedFrames :
    ((declared 11 0).flen.toNat ≤ fcap (declared 11 0).cfg ∧ (declared 11 0).flen.toNat < 12) ∧
    ((declared 12 1).flen.toNat ≤ fcap (declared 12 1).cfg ∧
      deserNat (declared 12 1).cfg.endian (memRead (declared 12 1).frm 8 2) + 12 > (declared 12 1).flen.toNat) ∧
    (after (exec .decode (declared 12 1))).errcode = 1 := by decide +kernel
theorem witness_MismatchIsRaisedByValidateOnly :
    ∃ t, exec .validate (atLimit 16) = .next t ∧ t.errcode = 2 :=
  ⟨_, next_after (by decide +kernel), by decide +kernel⟩
theorem witness_LengthRangeRefusesLongLengths :
    (Instr.sealPdu ∈ [Instr.sealPdu, .encode, .validate] ∧ (atLimit 17).len.toNat > (atLimit 17).cfg.maxSeg.toNat) ∧
    (Instr.crcbuf ∈ [Instr.decode, .crcbuf] ∧ (received 0x1FFFF []).flen.toNat > fcap (received 0x1FFFF []).cfg) ∧
    (after (exec .crcbuf (received 29 []))).errcode = 3 := by decide +kernel
theorem witness_ErrorPriority :
    decode 0x00000109 = .illegal .reservedOpcode ∧
    (declared 29 0).flen.toNat > fcap (declared 29 0).cfg ∧
    ((declared 11 0).flen.toNat ≤ fcap (declared 11 0).cfg ∧ (declared 11 0).flen.toNat < 12) ∧
    (12 ≤ (declared 12 1).flen.toNat ∧
      deserNat (declared 12 1).cfg.endian (memRead (declared 12 1).frm 8 2) + 12 > (declared 12 1).flen.toNat) ∧
    (atLimit 17).len.toNat > (atLimit 17).cfg.maxSeg.toNat ∧ (atLimit 0).len = 0 ∧
    pduChecksum (atLimit 16) ≠ (atLimit 16).csum := by decide +kernel
theorem witness_CommandsKeepTheOtherBytes :
    (Instr.clr ∉ [Instr.encode, .decode] ∧ isNext (exec .clr held) = true) ∧
    (Memory.wf (declared 12 0).frm = true ∧ isNext (exec .encode (declared 12 0)) = true) ∧
    (Memory.wf (declared 12 1).pay = true ∧ (after (exec .decode (declared 12 1))).errcode ≠ 0) := by decide +kernel
theorem witness_CommandsKeepTheOtherRegisters :
    isNext (exec (.crcbyte 0x41) held) = true ∧ (.crcbyte 0x41 : Instr) ∉ [Instr.decode, .clr] ∧
    (.crcbyte 0x41 : Instr) ∉ [Instr.sealPdu, .decode, .clr] ∧ (.crcbyte 0x41 : Instr) ∉ [Instr.encode, .clr] ∧
    Instr.nop ∈ [Instr.nop, .encode, .decode] ∧ (atLimit 0).len = 0 := by decide +kernel
theorem witness_ChecksumCommandsOverwriteCrc :
    (received 28 []).flen.toNat ≤ fcap (received 28 []).cfg ∧ (atLimit 16).len.toNat ≤ (atLimit 16).cfg.maxSeg.toNat ∧
    (atLimit 16).len ≠ 0 ∧ (atLimit 0).len = 0 ∧ isNext (exec .validate (atLimit 0)) = true := by decide +kernel
theorem witness_StaleBytesAreNeverRead :
    let s := received 16 frameV10
    let pay' := Memory.set s.pay 2 0x99
    let frm' := Memory.set s.frm 16 0x99
    pay' ≠ s.pay ∧ frm' ≠ s.frm ∧
    Memory.wf s.pay = true ∧ Memory.wf s.frm = true ∧ Memory.wf pay' = true ∧ Memory.wf frm' = true ∧
    memRead pay' 0 s.len.toNat = memRead s.pay 0 s.len.toNat ∧
    memRead frm' 0 s.flen.toNat = memRead s.frm 0 s.flen.toNat ∧ isNext (exec .decode s) = true := by decide +kernel
theorem witness_HostReadReturnsTheRegister : held.busy = false := by decide +kernel
theorem witness_HostWriteChangesOneRegister : held.busy = false := by decide +kernel
theorem witness_HostAccessesOneBufferByte :
    held.busy = false ∧ Memory.wf held.pay = true ∧ Memory.wf held.frm = true ∧
    (15 : Index).toNat < held.cfg.maxSeg.toNat ∧ (27 : Index).toNat < fcap held.cfg := by decide +kernel
theorem witness_AccessesOutsideTheMapFault :
    (3 : BitVec 2) = 3 ∧ (10 : Index).toNat ≥ 10 ∧ (16 : Index).toNat ≥ held.cfg.maxSeg.toNat ∧
    (28 : Index).toNat ≥ held.cfg.maxSeg.toNat + 12 := by decide +kernel
theorem witness_AccessesWhileBusyFault :
    pending.busy = true ∧ ¬ (spaceReg = spaceReg ∧ ((9 : Index) = 0 ∨ (9 : Index) = 2 ∨ (9 : Index) = 3)) ∧
    isNext (blockTurn pending) = true := by decide +kernel
theorem witness_ReadsHaveNoSideEffect :
    (hostRead spaceReg 9 held).freeCount = held.freeCount ∧ (hostRead spaceReg 10 held).freeCount ≠ held.freeCount := by
  decide +kernel
theorem witness_StatusBits :
    (6 : Nat) ≤ 6 ∧ statusWord { pending with hsfault := true } = 0x21 := by decide +kernel
theorem witness_BuildParametersNeverChange :
    isNext (step pending) = true ∧ isNext (step { held with script := [.reset] }) = true := by decide +kernel
theorem witness_HandshakeFaultIsSticky :
    (isNext (step { pending with hsfault := true }) = true ∧ State.hsfault { pending with hsfault := true } = true) ∧
    (held.hsfault = false ∧ locate held.cfg spacePay 16 = none ∧ pending.busy = true ∧ pending.hsfault = false) ∧
    isNext (exec .clr { held with hsfault := true }) = true := by decide +kernel
theorem witness_HostCannotDisturbAPendingCommand :
    pending.busy = true ∧ ∀ e ∈ [readRegEvent .status, writeRegEvent .len 0, cmdEvent .clr], e.isHostAccess = true := by
  decide +kernel
theorem witness_EveryIssuedCommandCompletes :
    State.busy { pending with script := [writeRegEvent .len 0, .blockTurn, .blockTurn] } = true ∧
    ∀ e ∈ [writeRegEvent .len 0, .blockTurn, .blockTurn], e ≠ Event.reset := by decide +kernel
theorem witness_WaitEndsWhenDoneIsRead :
    State.busy { pending with script := waitEvents 2 ++ [.reset] } = true ∧
    State.done { pending with script := waitEvents 2 ++ [.reset] } = false ∧
    State.script { pending with script := waitEvents 2 ++ [.reset] } = waitEvents 2 ++ [.reset] ∧ 1 ≤ 2 ∧ 2 ≤ 2 :=
  ⟨rfl, rfl, rfl, by decide, by decide⟩
/-- The invariant of a busy state with a sealed PDU and bytes in both buffers, and a step it takes. -/
theorem witness_EveryStepKeepsTheInvariant :
    State.Inv { pending with frm := buffer frameV10, flen := 16 } ∧
    isNext (step { pending with frm := buffer frameV10, flen := 16 }) = true :=
  ⟨⟨by decide +kernel, by decide +kernel, by decide +kernel, by decide +kernel, by decide +kernel, by decide +kernel,
    by decide +kernel, by decide +kernel, by decide +kernel⟩, by decide +kernel⟩
theorem witness_PowerUpMeetsTheInvariant :
    let pay := Memory.set (buffer [0x41]) 15 0x7F
    let frm := Memory.set [] 27 0x01
    Memory.wf pay = true ∧ Memory.wf frm = true ∧ Memory.within (paySize bigBuild) pay = true ∧
    Memory.within (fcap bigBuild) frm = true := by decide +kernel
theorem witness_ResetStepFromAnyState :
    State.script { pending with script := [.reset, .blockTurn] } = .reset :: [.blockTurn] ∧
    State.hsfault { pending with hsfault := true } = true ∧
    (after (step { pending with hsfault := true, script := [.reset] })).hsfault = false := by decide +kernel
theorem witness_EqualContentsAreEqualData :
    Memory.wf (buffer frameV10) = true ∧ Memory.wf (memWrite (buffer [1, 2]) 0 frameV10) = true ∧
    ∀ a, Memory.get (buffer frameV10) a = Memory.get (memWrite (buffer [1, 2]) 0 frameV10) a := by
  have h : memWrite (buffer [1, 2]) 0 frameV10 = buffer frameV10 := by decide +kernel
  exact ⟨by decide +kernel, by decide +kernel, fun a => by rw [h]⟩
theorem witness_SerialisationFollowsEndian :
    ([0x1D, 0xE6] : List Byte).length = 2 ∧ ([0x0A, 0x00, 0x00, 0x80] : List Byte).length = 4 := by decide
theorem witness_FrameLayout : (heldPdu held).wf = true ∧ 3 < (heldPdu held).len.toNat := by decide +kernel
theorem witness_CodecRoundTrip :
    (heldPdu held).wf = true ∧ Memory.wf (atLimit 16).pay = true ∧ Memory.wf (atLimit 16).frm = true ∧
    (atLimit 16).busy = false ∧ (atLimit 16).len.toNat ≤ (atLimit 16).cfg.maxSeg.toNat := by decide +kernel
/-- V10 and V23 as calls of `decode`: with and without excess bytes. -/
theorem witness_ReencodingReproducesTheFrame :
    decodeFrame .little frameV10 =
      .ok ({ total := 10, seq := 1, len := 4, payload := [0x41, 0x42, 0x43, 0x44], csum := 0xE61D }, false) ∧
    decodeFrame .little [0, 0, 0, 0, 5, 0, 0, 0, 0, 0, 0xAB, 0xCD, 0xEE] =
      .ok ({ total := 0, seq := 5, len := 0, payload := [], csum := 0xCDAB }, true) := ⟨rfl, rfl⟩
theorem witness_StructuralValidityIsLengthOnly :
    let s := declared 12 0
    let u := received 12 [9, 9, 9, 9, 9, 9, 9, 9, 0, 0, 9, 9]
    s.cfg = u.cfg ∧ s.flen = u.flen ∧ Memory.get s.frm 8 = Memory.get u.frm 8 ∧
    Memory.get s.frm 9 = Memory.get u.frm 9 ∧ isNext (exec .decode s) = true ∧ isNext (exec .decode u) = true := by
  decide +kernel
theorem witness_SealedFramesValidate :
    Memory.wf (atLimit 16).pay = true ∧ Memory.wf (atLimit 16).frm = true ∧
    (atLimit 16).len.toNat ≤ (atLimit 16).cfg.maxSeg.toNat := by decide +kernel
theorem witness_ChangedPayloadByteIsDetected :
    Memory.wf held.pay = true ∧ held.len.toNat ≤ held.cfg.maxSeg.toNat ∧ isNext (exec .sealPdu held) = true ∧
    3 < held.len.toNat ∧ (0xBB : Byte) ≠ Memory.get held.pay 3 := by decide +kernel
/-- V27: the frame of V10 with its length bytes zeroed. -/
theorem witness_ZeroedLengthIsAcceptedAsEmpty :
    let s := received 16 [0x0A, 0, 0, 0, 1, 0, 0, 0, 0, 0, 0x41, 0x42, 0x43, 0x44, 0x1D, 0xE6]
    12 < s.flen.toNat ∧ s.flen.toNat ≤ fcap s.cfg ∧ Memory.get s.frm 8 = 0 ∧ Memory.get s.frm 9 = 0 ∧
    (after (exec .decode s)).csum = 0x4241 ∧ statusWord (after (exec .decode s)) = 0x12 := by decide +kernel
theorem witness_CrcAffinity : ([0x41, 0x42] : List Byte).length = ([0x01, 0x80] : List Byte).length := by decide
/-- Two error patterns of two bytes: 16 bits from bit 0 on, and a single bit at the last place. -/
theorem witness_ShortErrorsAreDetected :
    ([0x41, 0x42] : List Byte).length = ([0x80, 0x01] : List Byte).length ∧ messageBit [0x80, 0x01] 0 = true ∧
    messageBit [0x80, 0x01] 15 = true ∧ (∀ j, messageBit [0x80, 0x01] j = true → 0 ≤ j ∧ j < 0 + 16) := by
  refine ⟨by decide, by decide, by decide, fun j hj => ⟨Nat.zero_le j, ?_⟩⟩
  refine Decidable.byContradiction fun hn => ?_
  have h2 : 2 ≤ j / 8 := by omega
  have hnone : ([0x80, 0x01] : List Byte)[j / 8]? = none := List.getElem?_eq_none (by simpa using h2)
  rw [messageBit, hnone] at hj
  simp at hj
theorem witness_ResidueIsZero :
    let s := { held with cfg := bigBuild }
    Memory.wf s.frm = true ∧ s.cfg.endian = .big ∧ s.len.toNat ≤ s.cfg.maxSeg.toNat := by decide +kernel

end Sys2Proof.Tests
end

section
/-! SUPPORT. What the later proofs share: the converse of the inversion lemma of `exec`, the inversion lemma of `step`,
and the predicate of a valid PDU. -/

namespace Sys2Proof.Machine

theorem pduValid_iff (s : State) : pduValid s = true ↔ s.len = 0 ∨ pduChecksum s = s.csum := by
  simp only [pduValid, decide_eq_true_eq]
  tauto

/-- `Completion` says no more than `exec`: every way it lists is what `exec` answers. -/
theorem exec_of_completion {i : Instr} {s t : State} (h : Completion s i t) : exec i s = .next t := by
  cases h
  case nop => rfl
  case crcinit => rfl
  case crcbyte b => rfl
  case crcbuf h => simp [exec, execCrcbuf, flenInRange_iff, h]
  case crcbufRange h => simp [exec, execCrcbuf, flenInRange_iff, h]
  case sealPdu h => simp [exec, execSeal, lenInRange_iff, h]
  case sealRange h => simp [exec, execSeal, lenInRange_iff, h]
  case encode h => simp [exec, execEncode, lenInRange_iff, h]
  case encodeRange h => simp [exec, execEncode, lenInRange_iff, h]
  case decode h h12 hl => simp [exec, execDecode, flenInRange_iff, decodeFrame_heldFrame, h, h12, hl]
  case decodeMalformed h hm =>
    have hn : ¬ (12 ≤ s.flen.toNat ∧ declaredLength s + 12 ≤ s.flen.toNat) := by omega
    simp only [exec, execDecode, flenInRange_iff, decodeFrame_heldFrame, if_pos h, if_neg hn]
  case decodeRange h => simp [exec, execDecode, flenInRange_iff, h]
  case validateEmpty h => simp [exec, execValidate, h]
  case validate h0 h hc => simp only [exec, execValidate, lenInRange_iff, if_neg h0, if_pos h, if_pos hc]
  case validateMismatch h0 h hc => simp only [exec, execValidate, lenInRange_iff, if_neg h0, if_pos h, if_neg hc]
  case validateRange h0 h => simp only [exec, execValidate, lenInRange_iff, if_neg h0, if_neg (not_le.mpr h)]
  case clr => rfl

/-- Every next state a step can answer from `s` (20_memory.md R56, 42_control.md R130, R137). -/
inductive StepTo (s : State) : State → Prop where
  | hostRead (space : BitVec 2) (index : Index) (rest : List Event) (hs : s.script = .hostRead space index :: rest) :
      StepTo s (hostRead space index { s with script := rest })
  | hostWrite (space : BitVec 2) (index : Index) (v : Word) (rest : List Event)
      (hs : s.script = .hostWrite space index v :: rest) :
      StepTo s (hostWrite space index v { s with script := rest })
  | reset (rest : List Event) (hs : s.script = .reset :: rest) : StepTo s (applyReset { s with script := rest })
  | command (i : Instr) (rest : List Event) (t : State) (hm : s.BlockMoves rest) (hb : s.busy = true)
      (hd : decode s.pend = .command i) (hc : Completion { s with script := rest } i t) : StepTo s t
  | illegal (why : IllegalReason) (rest : List Event) (hm : s.BlockMoves rest) (hb : s.busy = true)
      (hd : decode s.pend = .illegal why) : StepTo s (raise .illegalCommand { s with script := rest })

/-- The block's turn answers a next state only for a pending word, which it completes. -/
theorem stepTo_of_blockTurn {s t : State} {rest : List Event} (hm : s.BlockMoves rest)
    (h : blockTurn { s with script := rest } = .next t) : StepTo s t := by
  by_cases hb : s.busy = true
  · rw [blockTurn_of_busy (s := { s with script := rest }) hb] at h
    unfold execWord at h
    split at h
    · rename_i i hd
      exact .command i rest t hm hb hd (completion_of_exec h)
    · rename_i why hd
      cases h
      exact .illegal why rest hm hb hd
  · simp [blockTurn, hb] at h

/-- The inversion lemma of `step`. -/
theorem stepTo_of_step {s t : State} (h : step s = .next t) : StepTo s t := by
  rcases hs : s.script with _ | ⟨e, rest⟩
  · have hm : s.BlockMoves [] := .inr ⟨hs, rfl⟩
    exact stepTo_of_blockTurn hm (step_of_blockMoves hm ▸ h)
  · rw [step_of_cons hs] at h
    cases e with
    | hostRead space index => cases h; exact .hostRead space index rest hs
    | hostWrite space index v => cases h; exact .hostWrite space index v rest hs
    | blockTurn => exact stepTo_of_blockTurn (.inl hs) h
    | reset => cases h; exact .reset rest hs

end Sys2Proof.Machine
end

section
/-! PROOFS. O29 (10_state.md R15, 70_reset_and_hazards.md R166): no command reads a stale byte. -/

namespace Sys2Proof.Machine

/-- The state with other buffers. -/
def State.withBuffers (s : State) (pay frm : Memory) : State := { s with pay := pay, frm := frm }

/-- The buffers hold the bytes of `s` wherever they belong to its PDU or its frame; the rest of them is stale. -/
structure State.SameLiveBytes (s : State) (pay frm : Memory) : Prop where
  pay : memRead pay 0 s.len.toNat = memRead s.pay 0 s.len.toNat
  frm : memRead frm 0 s.flen.toNat = memRead s.frm 0 s.flen.toNat

/-- Memories that agree on a run of bytes agree on every part of it. -/
theorem memRead_part_eq {m m' : Memory} {n i k : Nat} (h : memRead m' 0 n = memRead m 0 n) (hk : i + k ≤ n) :
    memRead m' i k = memRead m i k := by
  have hpart (m : Memory) : memRead m i k = slice (memRead m 0 n) i (i + k) := by
    rw [slice_memRead m 0 n i (i + k) hk, Nat.zero_add, Nat.add_sub_cancel_left]
  rw [hpart m', hpart m, h]

/-! ### What the commands read -/

section Operands

variable {s : State} {pay frm : Memory}

theorem heldFrame_withBuffers (h : s.SameLiveBytes pay frm) : heldFrame (s.withBuffers pay frm) = heldFrame s := h.frm

theorem heldPdu_withBuffers (h : s.SameLiveBytes pay frm) : heldPdu (s.withBuffers pay frm) = heldPdu s :=
  congrArg (fun b => ({ total := s.total, seq := s.seq, len := s.len, payload := b, csum := s.csum } : Pdu)) h.pay

theorem pduChecksum_withBuffers (h : s.SameLiveBytes pay frm) :
    pduChecksum (s.withBuffers pay frm) = pduChecksum s :=
  congrArg (fun b => checksum16 (hdrBytes s.cfg.endian s.total s.seq s.len ++ b)) h.pay

theorem declaredLength_withBuffers (h : s.SameLiveBytes pay frm) (h12 : 12 ≤ s.flen.toNat) :
    declaredLength (s.withBuffers pay frm) = declaredLength s :=
  congrArg (deserNat s.cfg.endian) (memRead_part_eq h.frm (by omega))

theorem framePdu_withBuffers (h : s.SameLiveBytes pay frm) (hl : declaredLength s + 12 ≤ s.flen.toNat) :
    framePdu (s.withBuffers pay frm) = framePdu s := by
  have hread {i k : Nat} (hk : i + k ≤ s.flen.toNat) : memRead (s.withBuffers pay frm).frm i k = memRead s.frm i k :=
    memRead_part_eq h.frm hk
  unfold framePdu
  rw [declaredLength_withBuffers h (by omega), hread (by omega), hread (by omega), hread (by omega),
    hread (by omega), hread (by omega)]
  rfl

end Operands

/-! ### What the commands leave -/

/-- A command that leaves `LEN`, `FLEN` and both buffers alone leaves the live bytes what they were. -/
theorem State.SameLiveBytes.keep {s u : State} {pay frm : Memory} (h : s.SameLiveBytes pay frm)
    (hlen : u.len = s.len := by rfl) (hflen : u.flen = s.flen := by rfl)
    (hpay : u.pay = s.pay := by rfl) (hfrm : u.frm = s.frm := by rfl) : u.SameLiveBytes pay frm where
  pay := by rw [hlen, hpay]; exact h.pay
  frm := by rw [hflen, hfrm]; exact h.frm

/-- A run of bytes written to two memories is the same run in both. -/
theorem memRead_memWrite_eq {m m' : Memory} (hm : Memory.wf m = true) (hm' : Memory.wf m' = true) {bs : List Byte}
    {n : Nat} (hn : n = bs.length) : memRead (memWrite m' 0 bs) 0 n = memRead (memWrite m 0 bs) 0 n := by
  rw [hn, memRead_memWrite hm', memRead_memWrite hm]

/-- The length `ENCODE` leaves in `FLEN` is the length of the frame it writes (R81). -/
theorem encodedLength_toNat (s : State) :
    (BitVec.ofNat 17 (ovh + s.len.toNat)).toNat = (encodePdu s.cfg.endian (heldPdu s)).length := by
  have hpay : (heldPdu s).payload.length = s.len.toNat := memRead_length _ _ _
  have := s.len.isLt
  rw [encodePdu_length, hpay, BitVec.toNat_ofNat, show ovh = 12 from rfl]
  omega

/-- Whatever a command does on `s` it does on a state with other stale bytes, and the bytes that differ afterwards are
stale again. -/
theorem Completion.withBuffers {i : Instr} {s t : State} {pay frm : Memory} (h : s.SameLiveBytes pay frm)
    (hpay : Memory.wf s.pay = true) (hfrm : Memory.wf s.frm = true)
    (hpay' : Memory.wf pay = true) (hfrm' : Memory.wf frm = true) (hc : Completion s i t) :
    ∃ pay' frm', Completion (s.withBuffers pay frm) i (t.withBuffers pay' frm') ∧ t.SameLiveBytes pay' frm' := by
  cases hc
  case nop => exact ⟨pay, frm, .nop, h.keep⟩
  case crcinit => exact ⟨pay, frm, .crcinit, h.keep⟩
  case crcbyte b => exact ⟨pay, frm, .crcbyte b, h.keep⟩
  case crcbuf hr =>
    have c := Completion.crcbuf (s := s.withBuffers pay frm) hr
    rw [heldFrame_withBuffers h] at c
    exact ⟨pay, frm, c, h.keep⟩
  case crcbufRange hr => exact ⟨pay, frm, .crcbufRange hr, h.keep⟩
  case sealPdu hr =>
    have c := Completion.sealPdu (s := s.withBuffers pay frm) hr
    rw [pduChecksum_withBuffers h] at c
    exact ⟨pay, frm, c, h.keep⟩
  case sealRange hr => exact ⟨pay, frm, .sealRange hr, h.keep⟩
  case encode hr =>
    have c := Completion.encode (s := s.withBuffers pay frm) hr
    rw [heldPdu_withBuffers h] at c
    exact ⟨pay, _, c, h.pay, memRead_memWrite_eq hfrm hfrm' (encodedLength_toNat s)⟩
  case encodeRange hr => exact ⟨pay, frm, .encodeRange hr, h.keep⟩
  case decode hr h12 hl =>
    have hd := declaredLength_withBuffers h h12
    have c := Completion.decode (s := s.withBuffers pay frm) hr h12 (hd.symm ▸ hl)
    rw [hd, framePdu_withBuffers h hl] at c
    have hlen : (framePdu s).len.toNat = (framePdu s).payload.length := by
      rw [framePdu_len]; exact (memRead_length _ _ _).symm
    exact ⟨_, frm, c, memRead_memWrite_eq hpay hpay' hlen, h.frm⟩
  case decodeMalformed hr hm =>
    have hm' : s.flen.toNat < 12 ∨ declaredLength (s.withBuffers pay frm) + 12 > s.flen.toNat := by
      by_cases h12 : 12 ≤ s.flen.toNat
      · rwa [declaredLength_withBuffers h h12]
      · exact .inl (by omega)
    exact ⟨pay, frm, .decodeMalformed hr hm', h.keep⟩
  case decodeRange hr => exact ⟨pay, frm, .decodeRange hr, h.keep⟩
  case validateEmpty h0 => exact ⟨pay, frm, .validateEmpty h0, h.keep⟩
  case validate h0 hr hv =>
    have c := Completion.validate (s := s.withBuffers pay frm) h0 hr ((pduChecksum_withBuffers h).trans hv)
    rw [pduChecksum_withBuffers h] at c
    exact ⟨pay, frm, c, h.keep⟩
  case validateMismatch h0 hr hv =>
    have c := Completion.validateMismatch (s := s.withBuffers pay frm) h0 hr
      fun e => hv ((pduChecksum_withBuffers h).symm.trans e)
    rw [pduChecksum_withBuffers h] at c
    exact ⟨pay, frm, c, h.keep⟩
  case validateRange h0 hr => exact ⟨pay, frm, .validateRange h0 hr, h.keep⟩
  case clr => exact ⟨pay, frm, .clr, rfl, rfl⟩

/-- Settles O29: the states that differ in stale bytes only are related before and after every command. -/
theorem staleBytesAreNeverRead : Obligations.StaleBytesAreNeverRead := by
  intro i s t pay frm hpay hfrm hpay' hfrm' hp hf h
  obtain ⟨pay', frm', hc, hlive⟩ :=
    (completion_of_exec h).withBuffers ⟨hp, hf⟩ hpay hfrm hpay' hfrm'
  exact ⟨t.withBuffers pay' frm', exec_of_completion hc, rfl, hlive.pay, hlive.frm⟩

end Sys2Proof.Machine
end

section
/-! PROOFS. O42, O43 (10_state.md R23, R31, 20_memory.md R40, 60_exceptions.md R140): the state invariant holds at
power-up and every step keeps it. -/

namespace Sys2Proof.Machine

/-- The part of the invariant that speaks of the buffers. -/
structure State.BuffersOk (s : State) : Prop where
  pay_wf : Memory.wf s.pay = true
  frm_wf : Memory.wf s.frm = true
  pay_within : Memory.within (paySize s.cfg) s.pay = true
  frm_within : Memory.within (fcap s.cfg) s.frm = true

theorem State.Inv.buffersOk {s : State} (h : s.Inv) : s.BuffersOk :=
  ⟨h.pay_wf, h.frm_wf, h.pay_within, h.frm_within⟩

/-! ### Completions -/

/-- `ENCODE` of a PDU in range stays inside `FRM` (R143). -/
theorem State.BuffersOk.encode {s : State} (h : s.BuffersOk) (hr : s.len.toNat ≤ s.cfg.maxSeg.toNat) (n : Index) :
    State.BuffersOk { s with frm := memWrite s.frm 0 (encodePdu s.cfg.endian (heldPdu s)), flen := n } where
  pay_wf := h.pay_wf
  frm_wf := memWrite_wf h.frm_wf _ _
  pay_within := h.pay_within
  frm_within := by
    refine memWrite_within h.frm_within ?_
    have hpay : (heldPdu s).payload.length = s.len.toNat := memRead_length _ _ _
    rw [encodePdu_length, hpay, fcap, show ovh = 12 from rfl]
    omega

/-- `DECODE` of a frame in range whose declared length fits it stays inside `PAY` (R84). -/
theorem State.BuffersOk.loadPdu {s : State} (h : s.BuffersOk) (hr : s.flen.toNat ≤ fcap s.cfg)
    (hl : declaredLength s + 12 ≤ s.flen.toNat) : State.BuffersOk (loadPdu (framePdu s) s) where
  pay_wf := memWrite_wf h.pay_wf _ _
  frm_wf := h.frm_wf
  pay_within := by
    refine memWrite_within h.pay_within ?_
    have hpay : (framePdu s).payload.length = declaredLength s := memRead_length _ _ _
    rw [fcap, show ovh = 12 from rfl] at hr
    rw [hpay]
    show 0 + declaredLength s ≤ s.cfg.maxSeg.toNat
    omega
  frm_within := h.frm_within

/-- `finish` establishes the invariant's clauses on the flags, whatever they were (R131). -/
theorem State.BuffersOk.finish {s : State} (h : s.BuffersOk) {code : Byte} {valid trail : Bool}
    (hcode : code.toNat ≤ 4) (hvalid : valid = true → code = 0 ∧ trail = false)
    (htrail : trail = true → code = 0) :
    (finish code valid trail s).Inv where
  pay_wf := h.pay_wf
  frm_wf := h.frm_wf
  pay_within := h.pay_within
  frm_within := h.frm_within
  not_busy_and_done := by simp
  errcode_known := hcode
  valid_alone := hvalid
  trail_success := htrail
  result_of_command := fun _ => .inr rfl

theorem State.BuffersOk.succeed {s : State} (h : s.BuffersOk) : (succeed s).Inv :=
  h.finish (by decide) (by simp) (by simp)

theorem State.BuffersOk.raise {s : State} (h : s.BuffersOk) (e : CommandError) : (raise e s).Inv :=
  h.finish (by cases e <;> decide) (by simp) (by simp)

/-- A command that leaves the build and the buffers alone keeps this part of the invariant. -/
theorem State.BuffersOk.keep {s u : State} (h : s.BuffersOk) (hcfg : u.cfg = s.cfg := by rfl)
    (hpay : u.pay = s.pay := by rfl) (hfrm : u.frm = s.frm := by rfl) : u.BuffersOk where
  pay_wf := hpay ▸ h.pay_wf
  frm_wf := hfrm ▸ h.frm_wf
  pay_within := by rw [hcfg, hpay]; exact h.pay_within
  frm_within := by rw [hcfg, hfrm]; exact h.frm_within

/-- Every command ends in the invariant, from every state whose buffers meet it. -/
theorem Completion.inv {i : Instr} {s t : State} (hc : Completion s i t) (h : s.BuffersOk) : t.Inv := by
  cases hc
  case nop => exact h.succeed
  case crcinit => exact h.keep.succeed
  case crcbyte b => exact h.keep.succeed
  case crcbuf => exact h.keep.succeed
  case crcbufRange => exact h.raise _
  case sealPdu => exact h.keep.succeed
  case sealRange => exact h.raise _
  case encode hr => exact (h.encode hr _).succeed
  case encodeRange => exact h.raise _
  case decode hr _ hl => exact (h.loadPdu hr hl).finish (by decide) (by simp) (by simp)
  case decodeMalformed => exact h.raise _
  case decodeRange => exact h.raise _
  case validateEmpty => exact h.finish (by decide) (by simp) (by simp)
  case validate => exact h.keep.finish (by decide) (by simp) (by simp)
  case validateMismatch => exact h.keep.raise _
  case validateRange => exact h.raise _
  case clr => exact h.keep.succeed

/-! ### Host accesses and reset -/

/-- The invariant looks at the build, the buffers and the result flags only. -/
theorem State.Inv.keep {s u : State} (h : s.Inv) (hcfg : u.cfg = s.cfg := by rfl) (hpay : u.pay = s.pay := by rfl)
    (hfrm : u.frm = s.frm := by rfl) (hbusy : u.busy = s.busy := by rfl) (hdone : u.done = s.done := by rfl)
    (herr : u.errcode = s.errcode := by rfl) (hvalid : u.valid = s.valid := by rfl)
    (htrail : u.trail = s.trail := by rfl) : u.Inv := by
  obtain ⟨h1, h2, h3, h4, h5, h6, h7, h8, h9⟩ := h
  constructor <;> simpa only [hcfg, hpay, hfrm, hbusy, hdone, herr, hvalid, htrail]

theorem State.Inv.issue {s : State} (h : s.Inv) (w : Word) : (issue w s).Inv :=
  { h with not_busy_and_done := by simp, result_of_command := fun _ => .inl rfl }

theorem State.Inv.writeReg {s : State} (h : s.Inv) (r : Reg) (v : Word) : (writeReg r v s).Inv := by
  cases r
  case cmd => exact h.issue v
  all_goals exact h.keep

theorem State.Inv.hostWrite {s : State} (h : s.Inv) (space : BitVec 2) (index : Index) (v : Word) :
    (hostWrite space index v s).Inv := by
  rcases hostWrite_cases space index v s with e | ⟨l, hl, -, e⟩
  · exact e ▸ h.keep
  · rw [e]
    obtain ⟨hp, hf⟩ := locate_bound hl
    cases l with
    | reg r => exact h.writeReg r v
    | pay i =>
      exact { h with pay_wf := Memory.set_wf h.pay_wf _ _, pay_within := Memory.set_within h.pay_within (hp i rfl) _ }
    | frm i =>
      exact { h with frm_wf := Memory.set_wf h.frm_wf _ _, frm_within := Memory.set_within h.frm_within (hf i rfl) _ }

theorem State.Inv.hostRead {s : State} (h : s.Inv) (space : BitVec 2) (index : Index) :
    (hostRead space index s).Inv := by
  rcases hostRead_cases space index s with e | ⟨l, -, -, e⟩
  · exact e ▸ h.keep
  · exact e ▸ h.keep

/-- The reset values meet the invariant over any buffers that do. -/
theorem State.BuffersOk.inv_of_resetValues {s : State} (h : s.BuffersOk) (hbusy : s.busy = false)
    (herr : s.errcode = 0) (hvalid : s.valid = false) (htrail : s.trail = false) : s.Inv where
  pay_wf := h.pay_wf
  frm_wf := h.frm_wf
  pay_within := h.pay_within
  frm_within := h.frm_within
  not_busy_and_done := by simp [hbusy]
  errcode_known := by simp [herr]
  valid_alone := by simp [hvalid]
  trail_success := by simp [htrail]
  result_of_command := by simp [herr, hvalid, htrail]

/-- Settles O42: host accesses and resets keep the clauses one by one, and a completion ends in `finish`, which
establishes them. -/
theorem everyStepKeepsTheInvariant : Obligations.EveryStepKeepsTheInvariant := by
  intro s t h hstep
  have hrest (rest : List Event) : State.Inv { s with script := rest } := h.keep
  cases stepTo_of_step hstep with
  | hostRead space index rest => exact (hrest rest).hostRead space index
  | hostWrite space index v rest => exact (hrest rest).hostWrite space index v
  | reset rest => exact h.buffersOk.keep.inv_of_resetValues rfl rfl rfl rfl
  | command i rest _ _ _ _ hc => exact hc.inv (hrest rest).buffersOk
  | illegal why rest => exact (hrest rest).buffersOk.raise _

/-- Settles O43: `State.reset` is a power-up state with buffers that list nothing. -/
theorem powerUpMeetsTheInvariant : Obligations.PowerUpMeetsTheInvariant := by
  have hpower (c : Config) (pay frm : Memory) (pend : Word) (hpay : Memory.wf pay = true)
      (hfrm : Memory.wf frm = true) (hpay' : Memory.within (paySize c) pay = true)
      (hfrm' : Memory.within (fcap c) frm = true) : (State.powerUp c pay frm pend).Inv :=
    State.BuffersOk.inv_of_resetValues ⟨hpay, hfrm, hpay', hfrm'⟩ rfl rfl rfl rfl
  exact ⟨hpower Config.build [] [] 0 rfl rfl rfl rfl, hpower⟩

/-- Settles O44: `State.powerUp` and `applyReset` set every one of these fields to a constant. -/
theorem resetValues : Obligations.ResetValues :=
  ⟨⟨Config.build, [], [], 0, rfl⟩, fun _ => ⟨rfl, rfl, rfl⟩,
    fun _ _ _ _ => ⟨_, rfl, rfl, rfl, rfl, rfl, rfl, rfl, rfl, rfl, rfl, rfl, rfl, rfl, rfl, rfl, rfl, rfl, rfl⟩⟩

end Sys2Proof.Machine
end

section
/-! PROOFS. O12, O26, O27 (10_state.md R16, R23): what the commands write, and what they leave alone. -/

namespace Sys2Proof.Machine

/-- Settles O12: of all the ways a command can end, only a successful `VALIDATE` sets VALID, and only a successful
`DECODE` can set TRAIL, from the declared length it then loads into `LEN`. -/
theorem resultFlagsBelongToTheirCommands : Obligations.ResultFlagsBelongToTheirCommands := by
  intro i s t h
  cases completion_of_exec h
  case decode hr h12 hl => simp [framePdu_len]
  case validateEmpty h0 => simp [pduValid_iff, h0]
  case validate h0 hr hc => simp [pduValid_iff, hc]
  all_goals simp [succeed, raise, errCode]

/-- A command other than `ENCODE` and `DECODE` has no access to the buffers. -/
theorem Completion.buffers_of_not_codec {i : Instr} {s t : State} (hc : Completion s i t)
    (hi : i ∉ [Instr.encode, .decode]) : t.pay = s.pay ∧ t.frm = s.frm := by
  cases hc
  case encode => simp at hi
  case encodeRange => simp at hi
  case decode => simp at hi
  case decodeMalformed => simp at hi
  case decodeRange => simp at hi
  all_goals exact ⟨rfl, rfl⟩

/-- Settles O26: `ENCODE` and `DECODE` each make one write, which starts at index 0 of its buffer. -/
theorem commandsKeepTheOtherBytes : Obligations.CommandsKeepTheOtherBytes := by
  refine ⟨fun i s t hi h a => ?_, fun s t hw h => ?_, fun s t hw h => ?_⟩
  · obtain ⟨hpay, hfrm⟩ := (completion_of_exec h).buffers_of_not_codec hi
    exact ⟨congrArg (Memory.get · a) hpay, congrArg (Memory.get · a) hfrm⟩
  · cases completion_of_exec h
    case encode =>
      refine ⟨fun _ => rfl, fun a ha => ?_⟩
      exact get_memWrite_beyond hw (by omega)
    case encodeRange => exact ⟨fun _ => rfl, fun _ _ => rfl⟩
  · cases completion_of_exec h
    case decode =>
      refine ⟨fun _ => rfl, fun a ha => ?_, fun hne => absurd rfl hne⟩
      have hpay : (framePdu s).payload.length = declaredLength s := memRead_length _ _ _
      rw [finish_len, loadPdu_len, framePdu_len] at ha
      exact get_memWrite_beyond hw (by omega)
    case decodeMalformed => exact ⟨fun _ => rfl, fun _ _ => rfl, fun _ _ => rfl⟩
    case decodeRange => exact ⟨fun _ => rfl, fun _ _ => rfl, fun _ _ => rfl⟩

/-- No command writes the build parameters, `HSFAULT`, `PEND` or the model's own record of the host side. -/
theorem Completion.keeps_host_side {i : Instr} {s t : State} (hc : Completion s i t) :
    t.cfg = s.cfg ∧ t.hsfault = s.hsfault ∧ t.pend = s.pend ∧ t.script = s.script ∧ t.rdata = s.rdata ∧
      t.freeCount = s.freeCount := by
  cases hc <;> exact ⟨rfl, rfl, rfl, rfl, rfl, rfl⟩

/-- `CRC` is kept by the commands that do not run the checksum engine and by `VALIDATE` of an empty PDU (R18, R110). -/
theorem Completion.keeps_crc {i : Instr} {s t : State} (hc : Completion s i t)
    (hi : i ∈ [Instr.nop, .encode, .decode] ∨ (i = .validate ∧ s.len = 0)) : t.crc = s.crc := by
  cases hc
  case crcinit => simp at hi
  case crcbyte => simp at hi
  case crcbuf => simp at hi
  case sealPdu => simp at hi
  case validate h0 _ _ => exact absurd (by simpa using hi) h0
  case validateMismatch h0 _ _ => exact absurd (by simpa using hi) h0
  case clr => simp at hi
  all_goals rfl

/-- Settles O27: in each clause the commands that write the registers it names are the ones it leaves out. -/
theorem commandsKeepTheOtherRegisters : Obligations.CommandsKeepTheOtherRegisters := by
  intro i s t h
  have hc := completion_of_exec h
  refine ⟨hc.keeps_host_side, fun hi => ?_, fun hi => ?_, fun hi => ?_, hc.keeps_crc⟩
  · cases hc
    case decode => simp at hi
    case clr => simp at hi
    all_goals exact ⟨rfl, rfl, rfl⟩
  · cases hc
    case sealPdu => simp at hi
    case decode => simp at hi
    case clr => simp at hi
    all_goals rfl
  · cases hc
    case encode => simp at hi
    case clr => simp at hi
    all_goals rfl

end Sys2Proof.Machine
end

section
/-! PROOFS. O36, O37, O38 (10_state.md R21, R23, R24): the words of `STATUS` and `CFG`, and what steps do to the build
parameters and to `HSFAULT`. -/

namespace Sys2Proof.Machine

/-! ### The words -/

/-- Six flags added up by weight are the bits of the sum. -/
theorem testBit_flagSum (b0 b1 b2 b3 b4 b5 : Bool) (k : Nat) :
    Nat.testBit (flagBit b0 + 2 * flagBit b1 + 4 * flagBit b2 + 8 * flagBit b3 + 16 * flagBit b4 + 32 * flagBit b5) k =
      ([b0, b1, b2, b3, b4, b5][k]?).getD false := by
  by_cases hk : k < 6
  · revert b0 b1 b2 b3 b4 b5
    interval_cases k <;> decide
  · have hflag (b : Bool) : flagBit b ≤ 1 := by cases b <;> decide
    have hsum : flagBit b0 + 2 * flagBit b1 + 4 * flagBit b2 + 8 * flagBit b3 + 16 * flagBit b4 + 32 * flagBit b5
        < 2 ^ 6 := by linarith [hflag b0, hflag b1, hflag b2, hflag b3, hflag b4, hflag b5]
    rw [List.getElem?_eq_none (by simpa using hk)]
    exact Nat.testBit_lt_two_pow (hsum.trans_le (Nat.pow_le_pow_right (by omega) (by omega)))

/-- Bit `k` of `STATUS` is the `k`-th flag of R23; above the flags it is 0. -/
theorem statusWord_getLsbD (s : State) (k : Nat) :
    (statusWord s).getLsbD k =
      ([s.busy, s.done, errFlag s, s.valid, s.trail, s.hsfault][k]?).getD false := by
  rw [statusWord, BitVec.getLsbD_ofNat, testBit_flagSum]
  by_cases hk : k < 32
  · simp [hk]
  · rw [List.getElem?_eq_none (by simp; omega)]
    simp

/-- Settles O36, by the position of each flag in the list of flags. -/
theorem statusBits : Obligations.StatusBits := by
  intro s
  simp only [statusWord_getLsbD]
  refine ⟨rfl, rfl, ?_, rfl, rfl, rfl, fun k hk => ?_⟩
  · exact decide_eq_true_iff
  · rw [List.getElem?_eq_none (by simpa using hk)]
    rfl

theorem cfgWord_toNat (c : Config) : (cfgWord c).toNat = c.maxSeg.toNat + 65536 * endianBit c.endian := by
  have := c.maxSeg.isLt
  have he : endianBit c.endian ≤ 1 := by cases c.endian <;> decide
  rw [cfgWord, BitVec.toNat_ofNat]
  omega

/-! ### The build parameters -/

theorem writeReg_cfg (r : Reg) (v : Word) (s : State) : (writeReg r v s).cfg = s.cfg := by cases r <;> rfl

theorem writeLocation_cfg (l : Location) (v : Word) (s : State) : (writeLocation l v s).cfg = s.cfg := by
  cases l with
  | reg r => exact writeReg_cfg r v s
  | pay i => rfl
  | frm i => rfl

theorem hostRead_cfg (space : BitVec 2) (index : Index) (s : State) : (hostRead space index s).cfg = s.cfg := by
  rcases hostRead_cases space index s with e | ⟨l, -, -, e⟩
  · rw [e, faultRead_cfg]
  · rw [e, answerRead_cfg]

theorem hostWrite_cfg (space : BitVec 2) (index : Index) (v : Word) (s : State) :
    (hostWrite space index v s).cfg = s.cfg := by
  rcases hostWrite_cases space index v s with e | ⟨l, -, -, e⟩
  · rw [e, dropWrite_cfg]
  · rw [e, writeLocation_cfg]

theorem step_cfg {s t : State} (h : step s = .next t) : t.cfg = s.cfg := by
  cases stepTo_of_step h with
  | hostRead space index rest => exact hostRead_cfg space index _
  | hostWrite space index v rest => exact hostWrite_cfg space index v _
  | reset rest => rfl
  | command i rest _ _ _ _ hc => exact hc.keeps_host_side.1
  | illegal why rest => rfl

/-- Settles O37: no host access, reset or completion writes the build parameters. -/
theorem buildParametersNeverChange : Obligations.BuildParametersNeverChange := by
  refine ⟨fun c => ⟨?_, ?_, ?_⟩, fun s t h => ⟨step_cfg h, congrArg cfgWord (step_cfg h)⟩⟩
  · apply BitVec.eq_of_toNat_eq
    have := c.maxSeg.isLt
    rw [BitVec.extractLsb'_toNat, cfgWord_toNat, Nat.shiftRight_zero]
    omega
  · have := c.maxSeg.isLt
    rw [BitVec.getLsbD, cfgWord_toNat, Nat.testBit_eq_decide_div_mod_eq, decide_eq_true_iff]
    cases c.endian <;> simp [endianBit] <;> omega
  · have := c.maxSeg.isLt
    have he : endianBit c.endian ≤ 1 := by cases c.endian <;> decide
    rw [cfgWord_toNat]
    omega

/-! ### The handshake fault -/

theorem writeReg_hsfault (r : Reg) (v : Word) (s : State) : (writeReg r v s).hsfault = s.hsfault := by cases r <;> rfl

theorem writeLocation_hsfault (l : Location) (v : Word) (s : State) : (writeLocation l v s).hsfault = s.hsfault := by
  cases l with
  | reg r => exact writeReg_hsfault r v s
  | pay i => rfl
  | frm i => rfl

/-- The number that selects a register is its number (R20). -/
theorem regOfNumber_eq_some {n : Nat} {r : Reg} (h : regOfNumber n = some r) : n = regNumber r := by
  unfold regOfNumber at h
  split at h <;> cases h <;> rfl

/-- A located register is named by the space REG and its number, a located byte by another space (R40). -/
theorem locate_cases {c : Config} {space : BitVec 2} {index : Index} {l : Location}
    (h : locate c space index = some l) :
    (∃ r, l = .reg r ∧ space = spaceReg ∧ index.toNat = regNumber r) ∨
    (space ≠ spaceReg ∧ ((∃ i, l = .pay i) ∨ ∃ i, l = .frm i)) := by
  have hspace {n : Nat} (hs : space.toNat = n) (hn : n ≠ 0) : space ≠ spaceReg := by
    rintro rfl
    exact hn hs.symm
  unfold locate at h
  split at h
  · rename_i hs
    obtain ⟨r, hr, rfl⟩ := Option.map_eq_some_iff.mp h
    exact .inl ⟨r, rfl, BitVec.eq_of_toNat_eq hs, regOfNumber_eq_some hr⟩
  · rename_i hs
    split at h
    · cases h
      exact .inr ⟨hspace hs (by decide), .inl ⟨_, rfl⟩⟩
    · cases h
  · rename_i hs
    split at h
    · cases h
      exact .inr ⟨hspace hs (by decide), .inr ⟨_, rfl⟩⟩
    · cases h
  · cases h

/-- The locations a pending command leaves readable are three register numbers (R50). -/
theorem readableWhileBusy_iff {c : Config} {space : BitVec 2} {index : Index} {l : Location}
    (h : locate c space index = some l) :
    readableWhileBusy l = true ↔ space = spaceReg ∧ (index = 0 ∨ index = 2 ∨ index = 3) := by
  rcases locate_cases h with ⟨r, rfl, hs, hi⟩ | ⟨hs, ⟨i, rfl⟩ | ⟨i, rfl⟩⟩
  · simp only [hs, true_and, BitVec.toNat_eq, hi]
    cases r <;> decide
  · simp [readableWhileBusy, hs]
  · simp [readableWhileBusy, hs]

/-- A host write sets `HSFAULT` when it lies outside the map or meets a pending command, and leaves it alone otherwise
(R49, R50). -/
theorem hostWrite_hsfault_iff (space : BitVec 2) (index : Index) (v : Word) (s : State) :
    (hostWrite space index v s).hsfault = true ↔
      s.hsfault = true ∨ locate s.cfg space index = none ∨ s.busy = true := by
  unfold hostWrite
  cases hl : locate s.cfg space index with
  | none => simp
  | some l => by_cases hb : s.busy = true <;> simp [hb, writeLocation_hsfault]

/-- A host read sets `HSFAULT` when it lies outside the map or reads what a pending command hides, and leaves it alone
otherwise (R49, R50). -/
theorem hostRead_hsfault_iff (space : BitVec 2) (index : Index) (s : State) :
    (hostRead space index s).hsfault = true ↔
      s.hsfault = true ∨ locate s.cfg space index = none ∨
        (s.busy = true ∧ ¬ (space = spaceReg ∧ (index = 0 ∨ index = 2 ∨ index = 3))) := by
  unfold hostRead
  cases hl : locate s.cfg space index with
  | none => simp
  | some l =>
    rw [← readableWhileBusy_iff hl]
    by_cases hb : s.busy = true <;> by_cases hr : readableWhileBusy l = true <;> simp [hb, hr]

/-- Settles O38: the two host accesses can only set `HSFAULT`, and no completion writes it. -/
theorem handshakeFaultIsSticky : Obligations.HandshakeFaultIsSticky := by
  refine ⟨fun s t h hf hreset => ?_, fun s space index v hf => ?_, fun i s t h => ?_, fun s => rfl⟩
  · cases stepTo_of_step h with
    | hostRead space index rest => exact (hostRead_hsfault_iff _ _ _).mpr (.inl hf)
    | hostWrite space index v rest => exact (hostWrite_hsfault_iff _ _ _ _).mpr (.inl hf)
    | reset rest hs => exact absurd hs (hreset rest)
    | command i rest _ _ _ _ hc =>
      obtain ⟨-, hkeep, -⟩ := hc.keeps_host_side
      exact hkeep.trans hf
    | illegal why rest => exact hf
  · rw [hostWrite_hsfault_iff, hostRead_hsfault_iff, hf]
    exact ⟨or_iff_right Bool.false_ne_true, or_iff_right Bool.false_ne_true⟩
  · obtain ⟨-, hkeep, -⟩ := (completion_of_exec h).keeps_host_side
    exact hkeep

end Sys2Proof.Machine
end

section
/-! PROOFS. O30 to O33, O35 (10_state.md R26, R27, 20_memory.md R45 to R52): what one host access answers and changes. -/

namespace Sys2Proof.Machine

/-! ### Where an access lands -/

theorem locate_reg (c : Config) (r : Reg) : locate c spaceReg (BitVec.ofNat 17 (regNumber r)) = some (.reg r) := by
  cases r <;> rfl

theorem locate_pay {c : Config} {i : Index} (h : i.toNat < paySize c) : locate c spacePay i = some (.pay i.toNat) :=
  if_pos h

theorem locate_frm {c : Config} {i : Index} (h : i.toNat < fcap c) : locate c spaceFrm i = some (.frm i.toNat) :=
  if_pos h

/-- The numbers from 10 on are reserved (R28). -/
theorem regOfNumber_of_ge {n : Nat} (h : n ≥ 10) : regOfNumber n = none := by
  have hlt (r : Reg) : regNumber r < 10 := by cases r <;> decide
  refine Option.eq_none_iff_forall_ne_some.mpr fun r hr => ?_
  have := hlt r
  have := regOfNumber_eq_some hr
  omega

/-- The four ways out of the address map (R40, R49). -/
theorem locate_eq_none {c : Config} {space : BitVec 2} {index : Index}
    (h : space = 3 ∨ (space = 0 ∧ index.toNat ≥ 10) ∨ (space = 1 ∧ index.toNat ≥ c.maxSeg.toNat) ∨
      (space = 2 ∧ index.toNat ≥ c.maxSeg.toNat + 12)) : locate c space index = none := by
  rcases h with rfl | ⟨rfl, h⟩ | ⟨rfl, h⟩ | ⟨rfl, h⟩
  · rfl
  · exact congrArg (Option.map Location.reg) (regOfNumber_of_ge h)
  · exact if_neg (not_lt.mpr h)
  · exact if_neg (not_lt.mpr h)

/-! ### What an access does there -/

section Access

variable {s : State} {space : BitVec 2} {index : Index} {l : Location}

theorem hostRead_of_unmapped (h : locate s.cfg space index = none) : hostRead space index s = faultRead s := by
  simp [hostRead, h]

theorem hostRead_of_allowed (hl : locate s.cfg space index = some l) (h : s.busy = true → readableWhileBusy l = true) :
    hostRead space index s = answerRead (readLocation l s) s := by
  by_cases hb : s.busy = true
  · simp [hostRead, hl, h hb]
  · simp [hostRead, hl, hb]

theorem hostRead_of_idle (hb : s.busy = false) (hl : locate s.cfg space index = some l) :
    hostRead space index s = answerRead (readLocation l s) s :=
  hostRead_of_allowed hl fun h => absurd h (Bool.eq_false_iff.mp hb)

/-- A pending command hides everything but `CFG`, `STATUS` and `ERRCODE` (R50). -/
theorem hostRead_of_hidden (hb : s.busy = true) (h : ¬ (space = spaceReg ∧ (index = 0 ∨ index = 2 ∨ index = 3))) :
    hostRead space index s = faultRead s := by
  rcases hostRead_cases space index s with e | ⟨l, hl, hr, -⟩
  · exact e
  · exact absurd ((readableWhileBusy_iff hl).mp (hr hb)) h

theorem hostWrite_of_unmapped (v : Word) (h : locate s.cfg space index = none) :
    hostWrite space index v s = dropWrite s := by
  simp [hostWrite, h]

theorem hostWrite_of_busy (space : BitVec 2) (index : Index) (v : Word) (hb : s.busy = true) :
    hostWrite space index v s = dropWrite s := by
  rcases hostWrite_cases space index v s with e | ⟨l, -, hidle, -⟩
  · exact e
  · exact absurd hb (Bool.eq_false_iff.mp hidle)

theorem hostWrite_of_idle (v : Word) (hb : s.busy = false) (hl : locate s.cfg space index = some l) :
    hostWrite space index v s = writeLocation l v s := by
  simp [hostWrite, hl, hb]

end Access

/-- What a location reads as does not depend on what was read before. -/
theorem readLocation_answerRead (l : Location) (v : Word) (s : State) :
    readLocation l (answerRead v s) = readLocation l s := by
  cases l with
  | reg r => cases r <;> rfl
  | pay i => rfl
  | frm i => rfl

/-! ### The obligations on one access -/

/-- Settles O30: each of the ten numbers names its register, and an idle block answers with what it reads as. -/
theorem hostReadReturnsTheRegister : Obligations.HostReadReturnsTheRegister := by
  intro s hb
  have hread (r : Reg) : hostRead spaceReg (BitVec.ofNat 17 (regNumber r)) s = answerRead (readReg r s) s :=
    hostRead_of_idle hb (locate_reg s.cfg r)
  exact ⟨hread .cfg, hread .cmd, hread .status, hread .errcode, hread .total, hread .seq, hread .len, hread .csum,
    hread .flen, hread .crc⟩

/-- Settles O31: each of the ten numbers names its register, and an idle block takes the write as `writeReg` says. -/
theorem hostWriteChangesOneRegister : Obligations.HostWriteChangesOneRegister := by
  intro s v hb
  have hwrite (r : Reg) : hostWrite spaceReg (BitVec.ofNat 17 (regNumber r)) v s = writeReg r v s :=
    hostWrite_of_idle v hb (locate_reg s.cfg r)
  exact ⟨hwrite .cfg, hwrite .status, hwrite .errcode, hwrite .crc, hwrite .cmd, hwrite .total, hwrite .seq,
    hwrite .len, hwrite .csum, hwrite .flen⟩

/-- Read after write in a canonical buffer, with the byte a host write stores (R48). -/
theorem Memory.get_set_lowByte {m : Memory} (hm : Memory.wf m = true) (i : Nat) (v : Word) (a : Nat) :
    Memory.get (Memory.set m i (v.extractLsb' 0 8)) a = if a = i then BitVec.ofNat 8 v.toNat else Memory.get m a := by
  rw [Memory.get_set hm]
  exact if_congr eq_comm rfl rfl

/-- Settles O32: an index inside a buffer is located there, and the write is one store into that buffer. -/
theorem hostAccessesOneBufferByte : Obligations.HostAccessesOneBufferByte := by
  refine ⟨fun s i hb hi => ?_, fun s i hb hi => ?_, fun s i v hb hw hi => ?_, fun s i v hb hw hi => ?_⟩
  · exact hostRead_of_idle hb (locate_pay hi)
  · exact hostRead_of_idle hb (locate_frm hi)
  · exact ⟨_, hostWrite_of_idle v hb (locate_pay hi), rfl, Memory.get_set_lowByte hw i.toNat v⟩
  · exact ⟨_, hostWrite_of_idle v hb (locate_frm hi), rfl, Memory.get_set_lowByte hw i.toNat v⟩

/-- Settles O33: outside the map nothing is located, so both accesses fault, whatever `BUSY` is. -/
theorem accessesOutsideTheMapFault : Obligations.AccessesOutsideTheMapFault := by
  intro s space index v h
  have hl := locate_eq_none h
  exact ⟨hostWrite_of_unmapped v hl, _, hostRead_of_unmapped hl⟩

/-- Settles O35: a read either faults, and then draws a free word, or answers what it would answer again. -/
theorem readsHaveNoSideEffect : Obligations.ReadsHaveNoSideEffect := by
  intro s space index
  rcases hostRead_cases space index s with e | ⟨l, hl, hr, e⟩
  · rw [e]
    exact ⟨rfl, fun h => absurd h (Nat.succ_ne_self s.freeCount)⟩
  · have hagain := hostRead_of_allowed (s := answerRead (readLocation l s) s) hl hr
    rw [readLocation_answerRead] at hagain
    rw [e]
    exact ⟨rfl, fun _ => ⟨rfl, hagain⟩⟩

end Sys2Proof.Machine
end

section
/-! PROOFS. O7, O8 (20_memory.md R53, R56, 42_control.md R130): which steps there are, and where there is none. -/

namespace Sys2Proof.Machine

/-- What the completion of a word can answer (42_control.md R137). -/
theorem execWord_eq_next_iff {w : Word} {s t : State} :
    execWord w s = .next t ↔
      (∃ i, decode w = .command i ∧ Completion s i t) ∨
      (∃ why, decode w = .illegal why ∧ raise .illegalCommand s = t) := by
  unfold execWord
  cases decode w with
  | command i => simpa using ⟨completion_of_exec, exec_of_completion⟩
  | illegal why => simp [execIllegal]

/-- The block has a step exactly when a command is pending: the completion of its word (R56, 42_control.md R130). -/
theorem blockTurn_eq_next_iff {s t : State} :
    blockTurn s = .next t ↔ s.busy = true ∧ execWord s.pend s = .next t := by
  cases hb : s.busy with
  | false => simp [blockTurn_of_idle hb]
  | true => simp [blockTurn_of_busy hb]

/-- The block's turn on a pending command is the completion of its word. -/
theorem step_of_pending {s : State} {rest : List Event} (hm : s.BlockMoves rest) (hb : s.busy = true) :
    step s = execWord s.pend { s with script := rest } := by
  rw [step_of_blockMoves hm]
  exact blockTurn_of_busy (s := { s with script := rest }) hb

/-- Settles O7: one way round it is the inversion lemma of `step`, the other way the step of each event. -/
theorem stepIsOneOfTheFourSteps : Obligations.StepIsOneOfTheFourSteps := by
  intro s t
  constructor
  · intro h
    cases stepTo_of_step h with
    | hostRead space index rest hs => exact .inl ⟨space, index, rest, hs, rfl⟩
    | hostWrite space index v rest hs => exact .inr (.inl ⟨space, index, v, rest, hs, rfl⟩)
    | reset rest hs => exact .inr (.inr (.inl ⟨rest, hs, rfl⟩))
    | command i rest _ hm hb hd hc =>
      exact .inr (.inr (.inr ⟨rest, hm, hb, execWord_eq_next_iff.mpr (.inl ⟨i, hd, hc⟩)⟩))
    | illegal why rest hm hb hd =>
      exact .inr (.inr (.inr ⟨rest, hm, hb, execWord_eq_next_iff.mpr (.inr ⟨why, hd, rfl⟩)⟩))
  · rintro (⟨space, index, rest, hs, rfl⟩ | ⟨space, index, v, rest, hs, rfl⟩ | ⟨rest, hs, rfl⟩ | ⟨rest, hm, hb, h⟩)
    · exact step_of_cons hs
    · exact step_of_cons hs
    · exact step_of_cons hs
    · exact (step_of_pending hm hb).trans h

/-- Whoever moves next, either the block has its turn or a host access or a reset is taken. -/
theorem blockMoves_or_step_next (s : State) : (∃ rest, s.BlockMoves rest) ∨ ∃ t, step s = .next t := by
  rcases hs : s.script with _ | ⟨e, rest⟩
  · exact .inl ⟨[], .inr ⟨hs, rfl⟩⟩
  · cases e with
    | hostRead space index => exact .inr ⟨_, step_of_cons hs⟩
    | hostWrite space index v => exact .inr ⟨_, step_of_cons hs⟩
    | blockTurn => exact .inl ⟨rest, .inl hs⟩
    | reset => exact .inr ⟨_, step_of_cons hs⟩

/-- Settles O8: only the block's turn can stop, and it completes whatever word is pending. -/
theorem stepStopsOnlyWhenTheBlockIsIdle : Obligations.StepStopsOnlyWhenTheBlockIsIdle := by
  refine fun s => ⟨fun ⟨⟨rest, hm⟩, hb⟩ => ?_, fun h => ?_⟩
  · rw [step_of_blockMoves hm]
    exact blockTurn_of_idle (s := { s with script := rest }) hb
  · rcases blockMoves_or_step_next s with ⟨rest, hm⟩ | hnext
    · have hb : s.busy = true := by
        by_contra hb
        exact h ⟨⟨rest, hm⟩, by simpa using hb⟩
      rw [step_of_pending hm hb]
      exact execWord_next _ _
    · exact hnext

end Sys2Proof.Machine
end

section
/-! PROOFS. O34, O39 (20_memory.md R50, R53, R55, 42_control.md R130): a pending command does not notice the host. -/

namespace Sys2Proof.Machine

/-! ### Completions do not read the host side -/

/-- The state with another `HSFAULT` and another record of the host side: what `State.SameBlock` leaves open. -/
def State.withHostSide (s : State) (hsfault : Bool) (script : List Event) (rdata : Word) (freeCount : Nat) : State :=
  { s with hsfault := hsfault, script := script, rdata := rdata, freeCount := freeCount }

section HostSide

variable {s t : State}

theorem State.SameBlock.eq (h : s.SameBlock t) : t = s.withHostSide t.hsfault t.script t.rdata t.freeCount := h

theorem State.sameBlock_withHostSide (s : State) (f : Bool) (sc : List Event) (x : Word) (n : Nat) :
    s.SameBlock (s.withHostSide f sc x n) := rfl

/-- A command ends the same way whatever the host side holds, and carries it over. -/
theorem Completion.withHostSide {i : Instr} (hc : Completion s i t) (f : Bool) (sc : List Event) (x : Word) (n : Nat) :
    Completion (s.withHostSide f sc x n) i (t.withHostSide f sc x n) := by
  cases hc
  case nop => exact .nop
  case crcinit => exact .crcinit
  case crcbyte b => exact .crcbyte b
  case crcbuf h => exact .crcbuf h
  case crcbufRange h => exact .crcbufRange h
  case sealPdu h => exact .sealPdu h
  case sealRange h => exact .sealRange h
  case encode h => exact .encode h
  case encodeRange h => exact .encodeRange h
  case decode h h12 hl => exact .decode h h12 hl
  case decodeMalformed h hm => exact .decodeMalformed h hm
  case decodeRange h => exact .decodeRange h
  case validateEmpty h => exact .validateEmpty h
  case validate h0 h hv => exact .validate h0 h hv
  case validateMismatch h0 h hv => exact .validateMismatch h0 h hv
  case validateRange h0 h => exact .validateRange h0 h
  case clr => exact .clr

theorem execWord_withHostSide {w : Word} (h : execWord w s = .next t) (f : Bool) (sc : List Event) (x : Word) (n : Nat) :
    execWord w (s.withHostSide f sc x n) = .next (t.withHostSide f sc x n) := by
  rw [execWord_eq_next_iff] at h ⊢
  rcases h with ⟨i, hd, hc⟩ | ⟨why, hd, rfl⟩
  · exact .inl ⟨i, hd, hc.withHostSide f sc x n⟩
  · exact .inr ⟨why, hd, rfl⟩

theorem blockTurn_withHostSide (h : blockTurn s = .next t) (f : Bool) (sc : List Event) (x : Word) (n : Nat) :
    blockTurn (s.withHostSide f sc x n) = .next (t.withHostSide f sc x n) := by
  obtain ⟨hb, he⟩ := blockTurn_eq_next_iff.mp h
  exact blockTurn_eq_next_iff.mpr ⟨hb, execWord_withHostSide he f sc x n⟩

theorem blockTurn_script (h : blockTurn s = .next t) : t.script = s.script := by
  obtain ⟨-, he⟩ := blockTurn_eq_next_iff.mp h
  rcases execWord_eq_next_iff.mp he with ⟨i, -, hc⟩ | ⟨why, -, rfl⟩
  · obtain ⟨-, -, -, hscript, -⟩ := hc.keeps_host_side
    exact hscript
  · rfl

end HostSide

/-- Settles O34: a pending command leaves three registers readable, every other access faults, and a fault writes the
host side only. -/
theorem accessesWhileBusyFault : Obligations.AccessesWhileBusyFault := by
  intro s hb
  have hread {r : Reg} (hr : readableWhileBusy (.reg r) = true) :
      hostRead spaceReg (BitVec.ofNat 17 (regNumber r)) s = answerRead (readReg r s) s :=
    hostRead_of_allowed (locate_reg s.cfg r) fun _ => hr
  refine ⟨hread (r := .cfg) rfl, hread (r := .status) rfl, hread (r := .errcode) rfl,
    fun space index v => hostWrite_of_busy space index v hb, fun space index h => ⟨_, hostRead_of_hidden hb h⟩,
    fun t x n ht => ?_⟩
  rw [blockTurn_script ht]
  exact blockTurn_withHostSide ht true s.script x n

/-! ### Runs of host accesses -/

theorem State.sameBlock_script (s : State) (sc : List Event) : s.SameBlock { s with script := sc } := rfl

theorem State.SameBlock.trans {s t u : State} (hst : s.SameBlock t) (htu : t.SameBlock u) : s.SameBlock u := by
  have h := congrArg (State.withHostSide · u.hsfault u.script u.rdata u.freeCount) hst.eq
  exact htu.eq.trans h

theorem State.SameBlock.busy {s t : State} (h : s.SameBlock t) : t.busy = s.busy := by
  rw [h.eq]
  rfl

/-- States that agree on the block complete a pending command alike. -/
theorem State.SameBlock.blockTurn {s t u : State} (h : s.SameBlock u) (ht : blockTurn s = .next t) :
    ∃ t', blockTurn u = .next t' ∧ t.SameBlock t' := by
  have hu := blockTurn_withHostSide ht u.hsfault u.script u.rdata u.freeCount
  exact ⟨_, (congrArg Machine.blockTurn h.eq).trans hu, State.sameBlock_withHostSide _ _ _ _ _⟩

theorem hostRead_sameBlock (space : BitVec 2) (index : Index) (s : State) : s.SameBlock (hostRead space index s) := by
  rcases hostRead_cases space index s with e | ⟨l, -, -, e⟩
  · rw [e]; rfl
  · rw [e]; rfl

theorem hostRead_script (space : BitVec 2) (index : Index) (s : State) : (hostRead space index s).script = s.script := by
  rcases hostRead_cases space index s with e | ⟨l, -, -, e⟩
  · rw [e, faultRead_script]
  · rw [e, answerRead_script]

/-- A host access taken while a command is pending moves the script on and touches the host side only (R50, R53). -/
theorem step_hostAccess {s : State} {e : Event} {es : List Event} (hb : s.busy = true) (he : e.isHostAccess = true)
    (hs : s.script = e :: es) : ∃ u, step s = .next u ∧ u.script = es ∧ s.SameBlock u := by
  cases e with
  | hostRead space index =>
    exact ⟨_, step_of_cons hs, hostRead_script space index _, (s.sameBlock_script es).trans (hostRead_sameBlock space index _)⟩
  | hostWrite space index v =>
    have hw := hostWrite_of_busy (s := { s with script := es }) space index v hb
    exact ⟨_, (step_of_cons hs).trans (congrArg Host.Outcome.next hw), rfl, rfl⟩
  | blockTurn => cases he
  | reset => cases he

theorem coreRun_succ {M : Host.Core} {k : Nat} {s u : M.State} (h : M.step s = .next u) :
    M.run (k + 1) s = M.run k u := by
  simp only [Host.Core.run, h]

theorem runSteps_succ {k : Nat} {s u : State} (h : step s = .next u) : runSteps (k + 1) s = runSteps k u :=
  coreRun_succ (M := core) h

/-- However many host accesses are taken while a command is pending, they leave the block as it was. -/
theorem runSteps_hostAccesses {s : State} {accesses rest : List Event} (hb : s.busy = true)
    (ha : ∀ e ∈ accesses, e.isHostAccess = true) (hs : s.script = accesses ++ rest) :
    ∃ u, runSteps accesses.length s = .next u ∧ u.script = rest ∧ s.SameBlock u := by
  induction accesses generalizing s with
  | nil => exact ⟨s, rfl, hs, rfl⟩
  | cons e es ih =>
    obtain ⟨he, hes⟩ := List.forall_mem_cons.mp ha
    obtain ⟨v, hstep, hv, hsv⟩ := step_hostAccess hb he hs
    obtain ⟨u, hrun, hu, hvu⟩ := ih (hsv.busy.trans hb) hes hv
    exact ⟨u, (runSteps_succ hstep).trans hrun, hu, hsv.trans hvu⟩

/-- Settles O39, by induction on the accesses: each leaves the block as it was, and the completion reads nothing else. -/
theorem hostCannotDisturbAPendingCommand : Obligations.HostCannotDisturbAPendingCommand := by
  intro s accesses rest hb ha
  obtain ⟨u, hrun, hu, hsame⟩ := runSteps_hostAccesses (s := { s with script := accesses ++ rest }) hb ha rfl
  have hsu : s.SameBlock u := (s.sameBlock_script _).trans hsame
  obtain ⟨t, ht⟩ := execWord_next s.pend s
  have hturn : blockTurn s = .next t := blockTurn_eq_next_iff.mpr ⟨hb, ht⟩
  obtain ⟨t', ht', htt'⟩ := hsu.blockTurn hturn
  exact ⟨u, t, t', hrun, hu, hsu, hturn, ht', htt'⟩

end Sys2Proof.Machine
end

section
/-! PROOFS. O1, O2, O3, O4 (30_encoding.md R67, R68, R70): the fields of a command word decide what it decodes to. -/

namespace Sys2Proof

/-! ### A word is its three fields -/

theorem word_eq_iff_fields (v w : Word) :
    v = w ↔ zeroField v = zeroField w ∧ imm8Field v = imm8Field w ∧ opField v = opField w := by
  refine ⟨by rintro rfl; exact ⟨rfl, rfl, rfl⟩, fun ⟨hz, hi, ho⟩ => BitVec.eq_of_toNat_eq ?_⟩
  have hz := congrArg BitVec.toNat hz
  have hi := congrArg BitVec.toNat hi
  have ho := congrArg BitVec.toNat ho
  rw [zeroField_toNat, zeroField_toNat] at hz
  rw [imm8Field_toNat, imm8Field_toNat] at hi
  rw [opField_toNat, opField_toNat] at ho
  omega

@[simp] theorem zeroField_and (v w : Word) : zeroField (v &&& w) = zeroField v &&& zeroField w :=
  BitVec.extractLsb'_and

@[simp] theorem imm8Field_and (v w : Word) : imm8Field (v &&& w) = imm8Field v &&& imm8Field w :=
  BitVec.extractLsb'_and

@[simp] theorem opField_and (v w : Word) : opField (v &&& w) = opField v &&& opField w :=
  BitVec.extractLsb'_and

@[simp] theorem zeroField_encode (i : Instr) : zeroField (encode i) = 0 := by
  have h1 := i.imm8.isLt
  have h2 := i.opcode.isLt
  apply BitVec.eq_of_toNat_eq
  rw [zeroField_toNat, encode_toNat]
  show _ = 0
  omega

@[simp] theorem imm8Field_encode (i : Instr) : imm8Field (encode i) = i.imm8 := by
  have h1 := i.imm8.isLt
  have h2 := i.opcode.isLt
  apply BitVec.eq_of_toNat_eq
  rw [imm8Field_toNat, encode_toNat]
  omega

@[simp] theorem opField_encode (i : Instr) : opField (encode i) = i.opcode := by
  have h2 := i.opcode.isLt
  apply BitVec.eq_of_toNat_eq
  rw [opField_toNat, encode_toNat]
  omega

/-- The word of a command has that command's opcode and operand and nothing else (R67). -/
theorem encode_eq_iff {i : Instr} {w : Word} :
    encode i = w ↔ zeroField w = 0 ∧ imm8Field w = i.imm8 ∧ opField w = i.opcode := by
  simp only [word_eq_iff_fields, zeroField_encode, imm8Field_encode, opField_encode, eq_comm]

/-! ### What the decoder answers -/

/-- The three kinds of opcode: that of `CRCBYTE`, that of a command without an operand, and a reserved one (R68, R70). -/
theorem decodeOp_cases (op imm8 : Byte) :
    (op.toNat = 2 ∧ decodeOp op imm8 = .command (.crcbyte imm8)) ∨
    (op.toNat ≤ 8 ∧ op.toNat ≠ 2 ∧
      ∃ i : Instr, i.opcode = op ∧ i.imm8 = 0 ∧ decodeOp op imm8 = decodePlain i imm8) ∨
    (8 < op.toNat ∧ decodeOp op imm8 = .illegal .reservedOpcode) := by
  unfold decodeOp
  split
  case h_3 hop => exact .inl ⟨hop, rfl⟩
  case h_10 =>
    have hop : 8 < op.toNat := by
      simp only [imp_false] at *
      omega
    exact .inr (.inr ⟨hop, rfl⟩)
  all_goals
    rename_i hop
    refine .inr (.inl ⟨by omega, by omega, _, ?_, ?_, rfl⟩)
    · exact BitVec.eq_of_toNat_eq hop.symm
    · rfl

theorem decodePlain_eq_command_iff {i j : Instr} {imm8 : Byte} :
    decodePlain i imm8 = .command j ↔ imm8 = 0 ∧ i = j := by
  unfold decodePlain
  split <;> simp_all

theorem decodePlain_isIllegal_iff {i : Instr} {imm8 : Byte} :
    (∃ why, decodePlain i imm8 = .illegal why) ↔ imm8 ≠ 0 := by
  unfold decodePlain
  split <;> simp_all

theorem decodeOp_eq_command_iff {op imm8 : Byte} {i : Instr} :
    decodeOp op imm8 = .command i ↔ imm8 = i.imm8 ∧ op = i.opcode := by
  constructor
  · intro h
    rcases decodeOp_cases op imm8 with ⟨hop, e⟩ | ⟨-, -, j, hop, himm, e⟩ | ⟨-, e⟩
    · rw [e] at h
      cases h
      exact ⟨rfl, BitVec.eq_of_toNat_eq hop⟩
    · rw [e, decodePlain_eq_command_iff] at h
      obtain ⟨rfl, rfl⟩ := h
      exact ⟨himm.symm, hop.symm⟩
    · rw [e] at h
      cases h
  · rintro ⟨rfl, rfl⟩
    cases i <;> rfl

theorem decodeOp_isIllegal_iff {op imm8 : Byte} :
    (∃ why, decodeOp op imm8 = .illegal why) ↔ op.toNat > 8 ∨ (op.toNat ≠ 2 ∧ imm8.toNat ≠ 0) := by
  rcases decodeOp_cases op imm8 with ⟨hop, e⟩ | ⟨hle, hne, j, -, -, e⟩ | ⟨hgt, e⟩
  · simp [e, hop]
  · rw [e, decodePlain_isIllegal_iff, Ne, ← BitVec.toNat_inj]
    simp [hne, hle]
  · simp [e, hgt]

/-- The decoder inverts the encoder (R67, R68, R70). -/
theorem decode_eq_command_iff {w : Word} {i : Instr} : decode w = .command i ↔ encode i = w := by
  rw [encode_eq_iff, ← decodeOp_eq_command_iff]
  unfold decode
  split <;> simp_all

/-- R70's closed form. -/
theorem decode_isIllegal_iff {w : Word} :
    (∃ why, decode w = .illegal why) ↔
      (w.toNat / 65536 ≠ 0 ∨ w.toNat % 256 > 8 ∨ (w.toNat % 256 ≠ 2 ∧ w.toNat / 256 % 256 ≠ 0)) := by
  rw [← zeroField_toNat, ← opField_toNat, ← imm8Field_toNat]
  unfold decode
  split
  case isTrue h => simp [h, decodeOp_isIllegal_iff]
  case isFalse h =>
    have hz : (zeroField w).toNat ≠ 0 := fun h0 => h (BitVec.eq_of_toNat_eq h0)
    simp [hz]

/-- The decoder is total: every word is a command's or illegal (R70). -/
theorem decode_isIllegal_iff_not_command {w : Word} :
    (∃ why, decode w = .illegal why) ↔ ∀ i, decode w ≠ .command i := by
  cases decode w <;> simp

/-- Settles O1: both directions are `decode_eq_command_iff`. -/
theorem decodeAndEncodeAgree : Obligations.DecodeAndEncodeAgree :=
  ⟨fun _ _ => decode_eq_command_iff.mpr rfl, fun _ _ h => decode_eq_command_iff.mp h⟩

/-! ### The opcode map -/

/-- Every row compares bits 31:16 and 7:0 with 0 and an opcode; bits 15:8 it compares with 0 or leaves open (R68). -/
theorem opcodeRow_fields {row : OpcodeRow} (h : row ∈ opcodeMap) (imm8 : Byte) :
    zeroField row.mask = BitVec.allOnes 16 ∧ opField row.mask = BitVec.allOnes 8 ∧
    zeroField row.pattern = 0 ∧ imm8Field row.pattern = 0 ∧ opField row.pattern = (row.instr imm8).opcode ∧
    (imm8Field row.mask = BitVec.allOnes 8 ∧ (row.instr imm8).imm8 = 0 ∨
      imm8Field row.mask = 0 ∧ (row.instr imm8).imm8 = imm8) := by
  simp only [opcodeMap, List.mem_cons, List.not_mem_nil, or_false] at h
  rcases h with rfl | rfl | rfl | rfl | rfl | rfl | rfl | rfl | rfl
  case inr.inr.inl => exact ⟨rfl, rfl, rfl, rfl, rfl, .inr ⟨rfl, rfl⟩⟩
  all_goals exact ⟨rfl, rfl, rfl, rfl, rfl, .inl ⟨rfl, rfl⟩⟩

/-- A word selects a row iff it is the word of the row's command. -/
theorem selects_iff_encode {row : OpcodeRow} (h : row ∈ opcodeMap) (w : Word) :
    w &&& row.mask = row.pattern ↔ encode (row.instr (imm8Field w)) = w := by
  obtain ⟨hzm, hom, hzp, hip, hop, himm⟩ := opcodeRow_fields h (imm8Field w)
  rw [word_eq_iff_fields, encode_eq_iff, zeroField_and, imm8Field_and, opField_and, hzm, hom, hzp, hip, hop,
    BitVec.and_allOnes, BitVec.and_allOnes]
  rcases himm with ⟨hm, hi⟩ | ⟨hm, hi⟩
  · rw [hm, hi, BitVec.and_allOnes]
  · simp [hm, hi]

/-- Every command stands in the opcode map. -/
theorem exists_opcodeRow (i : Instr) : ∃ row ∈ opcodeMap, row.instr i.imm8 = i := by
  cases i <;> simp [opcodeMap, Instr.imm8]

/-- A word that selects a row carries the row's opcode, and the rows' opcodes differ. -/
theorem selected_rows_le_one (w : Word) :
    (opcodeMap.filter fun row => decide (w &&& row.mask = row.pattern)).length ≤ 1 := by
  have hnodup : (opcodeMap.map fun row => opField row.pattern).Nodup := by decide
  have hop (row : OpcodeRow) (h : row ∈ opcodeMap) (hw : w &&& row.mask = row.pattern) :
      opField row.pattern = opField w := by
    obtain ⟨-, hom, -⟩ := opcodeRow_fields h 0
    rw [← hw, opField_and, hom, BitVec.and_allOnes]
  calc (opcodeMap.filter fun row => decide (w &&& row.mask = row.pattern)).length
      = opcodeMap.countP fun row => decide (w &&& row.mask = row.pattern) := List.countP_eq_length_filter.symm
    _ ≤ opcodeMap.countP ((· == opField w) ∘ fun row => opField row.pattern) :=
        List.countP_mono_left fun row h hw => by simpa using hop row h (by simpa using hw)
    _ = (opcodeMap.map fun row => opField row.pattern).count (opField w) := List.countP_map.symm
    _ ≤ 1 := List.nodup_iff_count_le_one.mp hnodup _

/-- Settles O2: selecting a row and decoding to its command both say that the word is the command's. -/
theorem decoderFollowsOpcodeMap : Obligations.DecoderFollowsOpcodeMap :=
  ⟨fun _ h w => (selects_iff_encode h w).trans decode_eq_command_iff.symm, selected_rows_le_one, rfl⟩

/-! ### Illegal words -/

theorem decode_isIllegal_iff_no_row (w : Word) :
    (∃ why, decode w = .illegal why) ↔ ∀ row ∈ opcodeMap, w &&& row.mask ≠ row.pattern := by
  rw [decode_isIllegal_iff_not_command]
  constructor
  · intro h row hrow hw
    exact h _ (decode_eq_command_iff.mpr ((selects_iff_encode hrow w).mp hw))
  · intro h i hi
    obtain ⟨row, hrow, he⟩ := exists_opcodeRow i
    have hw : encode i = w := decode_eq_command_iff.mp hi
    refine h row hrow ((selects_iff_encode hrow w).mpr ?_)
    rw [← hw, imm8Field_encode, he]

end Sys2Proof

namespace Sys2Proof.Machine

/-- An idle block accepts every word (20_memory.md R51). -/
theorem hostWrite_cmd_of_idle {s : State} (w : Word) (hb : s.busy = false) : hostWrite spaceReg 1 w s = issue w s :=
  hostWrite_of_idle w hb (locate_reg s.cfg .cmd)

theorem execWord_of_illegal {w : Word} {why : IllegalReason} (h : decode w = .illegal why) (s : State) :
    execWord w s = .next (raise .illegalCommand s) :=
  execWord_eq_next_iff.mpr (.inr ⟨why, h, rfl⟩)

/-- Settles O3: no row and R70's closed form by the decoder's laws, and then the host's write and the completion. -/
theorem illegalWordsAreExactlyThese : Obligations.IllegalWordsAreExactlyThese := by
  refine ⟨decode_isIllegal_iff_no_row, fun _ => decode_isIllegal_iff, fun w why s hd hb => ?_⟩
  rw [hostWrite_cmd_of_idle w hb]
  exact ⟨rfl, (blockTurn_of_busy (issue_busy w s)).trans (execWord_of_illegal hd (issue w s))⟩

/-- Settles O4, by running the decoder on each word. -/
theorem sampleWordsDecode : Obligations.SampleWordsDecode := by
  unfold Obligations.SampleWordsDecode
  decide

end Sys2Proof.Machine
end

section
/-! PROOFS. O41 (30_encoding.md R73, 20_memory.md R54): the polls of `WAIT`. -/

namespace Sys2Proof.Machine

/-- `STATUS` can be read at any time, and reading it changes only what the host has read (R50). -/
theorem step_readStatus {s : State} {es : List Event} (hs : s.script = readRegEvent .status :: es) :
    step s = .next { s with script := es, rdata := statusWord s } := by
  have hread := hostRead_of_allowed (s := { s with script := es }) (locate_reg s.cfg .status) fun _ => rfl
  exact (step_of_cons hs).trans (congrArg Host.Outcome.next hread)

/-- Polls of `STATUS` leave nothing but the value the last one read. -/
theorem runSteps_polls {s : State} {n : Nat} {rest : List Event}
    (hs : s.script = List.replicate n (readRegEvent .status) ++ rest) (k : Nat) :
    runSteps (n + k) s =
      runSteps k { s with script := rest, rdata := if n = 0 then s.rdata else statusWord s } := by
  induction n generalizing s with
  | zero =>
    subst hs
    simp
  | succ n ih =>
    rw [Nat.add_right_comm, runSteps_succ (step_readStatus hs), ih rfl]
    simp [statusWord, errFlag]

/-- The completion of any word clears `BUSY` and sets `DONE` (42_control.md R131). -/
theorem execWord_ends {w : Word} {s t : State} (h : execWord w s = .next t) : t.busy = false ∧ t.done = true := by
  rcases execWord_eq_next_iff.mp h with ⟨i, -, hc⟩ | ⟨why, -, rfl⟩
  · cases hc <;> exact ⟨rfl, rfl⟩
  · exact ⟨rfl, rfl⟩

/-- The completion of a pending command and one read of `STATUS` after it. -/
theorem runSteps_completion_readStatus {s : State} {rest : List Event} (hb : s.busy = true)
    (hs : s.script = .blockTurn :: readRegEvent .status :: rest) :
    ∃ t, runSteps 2 s = .next t ∧ t.script = rest ∧ t.rdata = statusWord t ∧ t.busy = false ∧ t.done = true := by
  obtain ⟨t, ht⟩ := execWord_next s.pend { s with script := readRegEvent .status :: rest }
  have hturn : blockTurn { s with script := readRegEvent .status :: rest } = .next t :=
    blockTurn_eq_next_iff.mpr ⟨hb, ht⟩
  have hts : t.script = readRegEvent .status :: rest := blockTurn_script hturn
  have hstep : step s = .next t := (step_of_blockMoves (.inl hs)).trans hturn
  obtain ⟨hbusy, hdone⟩ := execWord_ends ht
  exact ⟨_, (runSteps_succ hstep).trans (runSteps_succ (step_readStatus hts)), rfl, rfl, hbusy, hdone⟩

/-- Settles O41: the polls before the completion read the pending `STATUS`, the one after it the `STATUS` it left. -/
theorem waitEndsWhenDoneIsRead : Obligations.WaitEndsWhenDoneIsRead := by
  intro s polls rest hb hd hs
  rw [waitEvents, List.append_assoc] at hs
  constructor
  · intro k hk hkp
    obtain ⟨m, rfl⟩ := Nat.exists_eq_add_of_le hkp
    rw [List.replicate_add, List.append_assoc] at hs
    refine ⟨_, runSteps_polls hs 0, ?_⟩
    simp only [if_neg (Nat.one_le_iff_ne_zero.mp hk), statusWord_getLsbD]
    exact ⟨hd, hb⟩
  · obtain ⟨t, hrun, hscript, hrdata, hbusy, hdone⟩ := runSteps_completion_readStatus
      (s := { s with script := .blockTurn :: readRegEvent .status :: rest,
                     rdata := if polls = 0 then s.rdata else statusWord s }) hb rfl
    refine ⟨t, (runSteps_polls hs 2).trans hrun, hscript, ?_, hbusy, hdone⟩
    rw [hrdata, statusWord_getLsbD]
    exact hdone

end Sys2Proof.Machine
end

section
/-! PROOFS. O47, O48 (30_encoding.md R62 to R64, 40_codec.md R80): serialised fields and the layout of a frame. -/

namespace Sys2Proof.Machine

/-! ### Serialised fields of any width -/

/-- The two byte orders are each other's reverse (R62). -/
theorem ser_big {w : Nat} (n : Nat) (v : BitVec w) : ser n .big v = (ser n .little v).reverse := by
  apply List.ext_getElem
  · simp
  · intro k h1 h2
    simp [ser]

/-- Least significant first, the head is the low byte and the tail the rest of the value. -/
theorem ser_little_succ {w : Nat} (n : Nat) (v : BitVec w) :
    ser (n + 1) .little v = v.extractLsb' 0 8 :: ser n .little (v >>> 8) := by
  simp only [ser, List.range_succ_eq_map, List.map_cons, List.map_map]
  congr 1
  refine List.map_congr_left fun k _ => ?_
  apply BitVec.eq_of_toNat_eq
  simp [BitVec.extractLsb'_toNat, ← Nat.shiftRight_add, Nat.mul_succ, Nat.add_comm 8]

/-- `n` bytes hold the value modulo 256^n. -/
theorem natOfBytes_ser_little {w : Nat} (n : Nat) (v : BitVec w) :
    natOfBytes (ser n .little v) = v.toNat % 256 ^ n := by
  induction n generalizing v with
  | zero => simp [ser, natOfBytes, Nat.mod_one]
  | succ n ih =>
    rw [ser_little_succ, natOfBytes, ih, Nat.pow_succ', Nat.mod_mul]
    simp [BitVec.extractLsb'_toNat, Nat.shiftRight_eq_div_pow]

theorem deserNat_ser {w : Nat} (n : Nat) (e : Endian) (v : BitVec w) :
    deserNat e (ser n e v) = v.toNat % 256 ^ n := by
  cases e with
  | little => exact natOfBytes_ser_little n v
  | big => rw [deserNat, ser_big, List.reverse_reverse, natOfBytes_ser_little]

/-- Lists of one length are told apart by the number they spell. -/
theorem natOfBytes_inj {a b : List Byte} (hl : a.length = b.length) (h : natOfBytes a = natOfBytes b) : a = b := by
  induction a generalizing b with
  | nil => exact (List.length_eq_zero_iff.mp hl.symm).symm
  | cons x xs ih =>
    cases b with
    | nil => simp at hl
    | cons y ys =>
      have hx := x.isLt
      have hy := y.isLt
      simp only [natOfBytes] at h
      have hxy : x = y := BitVec.eq_of_toNat_eq (by omega)
      have hrest : xs = ys := ih (Nat.succ.inj hl) (by omega)
      rw [hxy, hrest]

theorem deserNat_inj {e : Endian} {a b : List Byte} (hl : a.length = b.length) (h : deserNat e a = deserNat e b) :
    a = b := by
  cases e with
  | little => exact natOfBytes_inj hl h
  | big => exact List.reverse_injective (natOfBytes_inj (by simpa using hl) h)

theorem pow_256_eq_two_pow (n : Nat) : 256 ^ n = 2 ^ (8 * n) := by
  rw [Nat.pow_mul]

/-- `deser_N(ser_N(v)) == v` (R63). -/
theorem deser_ser (n : Nat) (e : Endian) (v : BitVec (8 * n)) : deser (8 * n) e (ser n e v) = v := by
  apply BitVec.eq_of_toNat_eq
  rw [deser, deserNat_ser, pow_256_eq_two_pow, BitVec.toNat_ofNat, Nat.mod_mod, Nat.mod_eq_of_lt v.isLt]

/-- `ser_N(deser_N(b)) == b` (R63). -/
theorem ser_deser {n : Nat} (e : Endian) {b : List Byte} (h : b.length = n) : ser n e (deser (8 * n) e b) = b := by
  have hlt : deserNat e b < 256 ^ n := h ▸ deserNat_lt e b
  refine deserNat_inj (e := e) (by simp [h]) ?_
  rw [deserNat_ser, deser, BitVec.toNat_ofNat, ← pow_256_eq_two_pow, Nat.mod_mod, Nat.mod_eq_of_lt hlt]

/-- Settles O47: the inverse laws hold at every width, and the rest is the two sums and the two lists written out. -/
theorem serialisationFollowsEndian : Obligations.SerialisationFollowsEndian := by
  refine ⟨fun v => ⟨rfl, rfl⟩, fun v => ⟨rfl, rfl⟩, fun a b => ?_, fun a b c d => ?_, fun e v => deser_ser 2 e v,
    fun e v => deser_ser 4 e v, fun e b h => ser_deser e h, fun e b h => ser_deser e h, by decide, by decide, by decide,
    by decide⟩
  · simp [deserNat, natOfBytes]
  · simp only [deserNat, natOfBytes, List.reverse_cons, List.reverse_nil, List.nil_append, List.cons_append]
    omega

/-! ### The layout of a frame -/

theorem Pdu.payload_length {p : Pdu} (h : p.wf = true) : p.payload.length = p.len.toNat := of_decide_eq_true h

/-- A slice is the part that stands between what comes before it and what comes after it. -/
theorem slice_eq_of_append {f pre part post : List Byte} {a b : Nat} (hf : f = pre ++ (part ++ post))
    (ha : pre.length = a) (hb : a + part.length = b) : slice f a b = part := by
  subst hf ha hb
  simp [slice]

/-- The frame field by field (R64, R80). -/
theorem encodePdu_eq_fields (e : Endian) (p : Pdu) :
    encodePdu e p =
      ser 4 e p.total ++ (ser 4 e p.seq ++ (ser 2 e p.len ++ (p.payload ++ ser 2 e p.csum))) := by
  simp only [encodePdu, hdrBytes, List.append_assoc]

/-- Settles O48: each field is the part of the frame between the fields before it and the fields after it. -/
theorem frameLayout : Obligations.FrameLayout := by
  intro e p hp
  have hlen : p.payload.length = p.len.toNat := Pdu.payload_length hp
  have hf := encodePdu_eq_fields e p
  have hhdr : encodePdu e p = hdrBytes e p.total p.seq p.len ++ (p.payload ++ ser 2 e p.csum) :=
    List.append_assoc _ _ _
  refine ⟨by rw [encodePdu_length, hlen], ?total, ?seq, ?len, ?hdr, fun k hk => ?payload, ?csum⟩
  case total => exact slice_eq_of_append (pre := []) hf rfl (by simp)
  case seq => exact slice_eq_of_append hf (ser_length 4 e _) (by rw [ser_length])
  case len => exact slice_eq_of_append (hf.trans (List.append_assoc _ _ _).symm) (by simp) (by simp)
  case hdr => exact slice_eq_of_append (pre := []) hhdr rfl (by simp)
  case payload =>
    rw [hhdr, List.getElem?_append_right (by simp), List.getElem?_append_left (by simp; omega)]
    simp
  case csum =>
    refine slice_eq_of_append (pre := hdrBytes e p.total p.seq p.len ++ p.payload) (post := []) ?_
      (by simp [hlen]) (by simp; omega)
    rw [List.append_nil, encodePdu]

end Sys2Proof.Machine
end

section
/-! PROOFS. O50, and the first half of O49 (40_codec.md R85, R86): the codec's two functions undo each other. -/

namespace Sys2Proof.Machine

/-- Decoding the frame of a PDU finds each field where the layout puts it (R85). -/
theorem decodeFrame_encodePdu {e : Endian} {p : Pdu} (hp : p.wf = true) :
    decodeFrame e (encodePdu e p) = .ok (p, false) := by
  obtain ⟨hlength, htotal, hseq, hlen, -, -, hcsum⟩ := frameLayout e p hp
  have hpayload : slice (encodePdu e p) 10 (10 + p.len.toNat) = p.payload :=
    slice_eq_of_append (List.append_assoc _ _ _) (hdrBytes_length e _ _ _) (by rw [Pdu.payload_length hp])
  have hl : deser 16 e (slice (encodePdu e p) 8 10) = p.len := by rw [hlen]; exact deser_ser 2 e p.len
  rcases decodeFrame_cases e (encodePdu e p) with ⟨hbad, -⟩ | ⟨-, -, hok⟩
  · rw [hl] at hbad
    omega
  · rw [hok, hl, htotal, hseq, hpayload, hcsum, hlength, deser_ser 4 e p.total, deser_ser 4 e p.seq,
      deser_ser 2 e p.csum, Nat.add_comm, decide_eq_false (lt_irrefl _)]

/-- Two adjacent slices are one. -/
theorem slice_append_slice (f : List Byte) {a b c : Nat} (hab : a ≤ b) (hbc : b ≤ c) :
    slice f a b ++ slice f b c = slice f a c := by
  obtain ⟨i, rfl⟩ := Nat.exists_eq_add_of_le hab
  obtain ⟨j, rfl⟩ := Nat.exists_eq_add_of_le hbc
  have hac : a + i + j - a = i + j := by omega
  simp only [slice, Nat.add_sub_cancel_left, hac, List.take_add, List.drop_drop]

/-- A field of `n` bytes that was read from a slice is written as that slice (R63). -/
theorem ser_deser_slice {n : Nat} (e : Endian) {f : List Byte} {a b : Nat} (hn : b - a = n) (hb : b ≤ f.length) :
    ser n e (deser (8 * n) e (slice f a b)) = slice f a b :=
  ser_deser e ((slice_length f a b hb).trans hn)

/-- Encoding a decoded PDU gives the bytes of the frame up to the end of its checksum, and `trail` says whether the
frame goes on (R86). -/
theorem encodePdu_of_decodeFrame {e : Endian} {f : List Byte} {p : Pdu} {trail : Bool}
    (h : decodeFrame e f = .ok (p, trail)) :
    encodePdu e p = f.take (12 + p.len.toNat) ∧ trail = decide (f.length > p.len.toNat + 12) := by
  rcases decodeFrame_cases e f with ⟨-, h'⟩ | ⟨h12, hl, h'⟩
  · rw [h'] at h
    cases h
  · rw [h'] at h
    cases h
    refine ⟨?_, rfl⟩
    generalize hn : (deser 16 e (slice f 8 10)).toNat = n at hl ⊢
    rw [encodePdu_eq_fields, ser_deser_slice (n := 4) e rfl (by omega), ser_deser_slice (n := 4) e rfl (by omega),
      ser_deser_slice (n := 2) e rfl (by omega), ser_deser_slice (n := 2) e (by omega) (by omega),
      slice_append_slice f (by omega) (by omega), slice_append_slice f (by omega) (by omega),
      slice_append_slice f (by omega) (by omega), slice_append_slice f (by omega) (by omega)]
    rfl

/-- Settles O50: the first `12 + l` bytes are the whole frame exactly when it has no more. -/
theorem reencodingReproducesTheFrame : Obligations.ReencodingReproducesTheFrame := by
  intro e f p trail h
  obtain ⟨hbytes, htrail⟩ := encodePdu_of_decodeFrame h
  refine ⟨hbytes, ?_⟩
  rw [hbytes, htrail, List.take_eq_self_iff, decide_eq_false_iff_not]
  omega

end Sys2Proof.Machine
end

section
/-! PROOFS. O20, O21, O51 (40_codec.md R81, R84, R87): what `ENCODE` and `DECODE` do to a state. -/

namespace Sys2Proof.Machine

/-- The state `ENCODE` leaves when it succeeds (R81). -/
def encoded (s : State) : State :=
  succeed { s with
    frm := memWrite s.frm 0 (encodePdu s.cfg.endian (heldPdu s)), flen := BitVec.ofNat 17 (ovh + s.len.toNat) }

theorem exec_encode {s : State} (h : s.len.toNat ≤ s.cfg.maxSeg.toNat) : exec .encode s = .next (encoded s) :=
  exec_of_completion (.encode h)

theorem heldPdu_wf (s : State) : (heldPdu s).wf = true := decide_eq_true (memRead_length _ _ _)

theorem encodePdu_heldPdu_length (s : State) : (encodePdu s.cfg.endian (heldPdu s)).length = 12 + s.len.toNat :=
  (frameLayout s.cfg.endian (heldPdu s) (heldPdu_wf s)).1

theorem encoded_flen (s : State) : (encoded s).flen.toNat = 12 + s.len.toNat :=
  (encodedLength_toNat s).trans (encodePdu_heldPdu_length s)

theorem encoded_flen_le_fcap {s : State} (h : s.len.toNat ≤ s.cfg.maxSeg.toNat) :
    (encoded s).flen.toNat ≤ fcap s.cfg := by
  rw [encoded_flen, fcap, Nat.add_comm]
  exact Nat.add_le_add_right h ovh

/-- The frame after `ENCODE` is the frame of the PDU that was held. -/
theorem heldFrame_encoded {s : State} (hfrm : Memory.wf s.frm = true) :
    heldFrame (encoded s) = encodePdu s.cfg.endian (heldPdu s) := by
  rw [heldFrame, encoded_flen, ← encodePdu_heldPdu_length]
  exact memRead_memWrite hfrm 0 _

/-- Settles O20: the state `ENCODE` leaves, field by field. -/
theorem encodeSerialisesTheHeldPdu : Obligations.EncodeSerialisesTheHeldPdu := by
  refine ⟨by decide, fun s hfrm hr => ?_, fun s hr => exec_of_completion (.encodeRange hr), by decide⟩
  refine ⟨encoded s, exec_encode hr, rfl, encoded_flen s, ?_, fun a ha => ?_, fun hmax => ?_⟩
  · rw [← encoded_flen]
    exact heldFrame_encoded hfrm
  · exact get_memWrite_beyond hfrm (by rwa [encodePdu_heldPdu_length, Nat.zero_add])
  · rw [encoded_flen, hmax, Nat.add_comm]
    rfl

/-- The state `DECODE` leaves when it succeeds (R84). -/
def decoded (s : State) : State :=
  finish 0 false (decide (declaredLength s + 12 < s.flen.toNat)) (loadPdu (framePdu s) s)

/-- Settles O21: the state `DECODE` leaves, field by field, and its two errors. -/
theorem decodeLoadsTheFrame : Obligations.DecodeLoadsTheFrame := by
  refine ⟨by decide, fun s l hpay hr h12 hdl hl => ?_, fun s hr => exec_of_completion (.decodeRange hr),
    fun s hr hm => exec_of_completion (.decodeMalformed hr hm), rfl⟩
  change l = declaredLength s at hdl
  subst hdl
  have hlength : (framePdu s).payload.length = declaredLength s := memRead_length _ _ _
  refine ⟨?_, decoded s, exec_of_completion (.decode hr h12 hl), rfl, deser_toNat_four _ (memRead_length _ _ _),
    deser_toNat_four _ (memRead_length _ _ _), framePdu_len s, deser_toNat_two _ (memRead_length _ _ _), ?_,
    fun a ha => ?_⟩
  · exact Nat.le_of_add_le_add_right (hl.trans hr)
  · have hread := memRead_memWrite hpay 0 (framePdu s).payload
    rwa [hlength] at hread
  · exact get_memWrite_beyond hpay (by rwa [hlength, Nat.zero_add])

/-- `DECODE` succeeds exactly on a frame that fits its buffer and holds what it declares (R87). -/
theorem decode_errcode_eq_zero_iff {s t : State} (h : exec .decode s = .next t) :
    t.errcode = 0 ↔ 12 ≤ s.flen.toNat ∧ s.flen.toNat ≤ fcap s.cfg ∧ declaredLength s + 12 ≤ s.flen.toNat := by
  cases completion_of_exec h with
  | decode hr h12 hl => exact iff_of_true rfl ⟨h12, hr, hl⟩
  | decodeMalformed hr hm => exact iff_of_false (by decide : errCode .malformedPdu ≠ 0) (by omega)
  | decodeRange hr => exact iff_of_false (by decide : errCode .lengthRange ≠ 0) (by omega)

/-- Settles O51: the condition for success reads the build, `FLEN` and the two length bytes. -/
theorem structuralValidityIsLengthOnly : Obligations.StructuralValidityIsLengthOnly := by
  refine ⟨fun s t h => decode_errcode_eq_zero_iff h, fun s u t v hcfg hflen h8 h9 ht hv => ?_⟩
  have hdl : declaredLength s = declaredLength u := by simp only [declaredLength, memRead, hcfg, h8, h9]
  rw [decode_errcode_eq_zero_iff ht, decode_errcode_eq_zero_iff hv, hcfg, hflen, hdl]

end Sys2Proof.Machine
end

section
/-! PROOFS. O49, O52 (40_codec.md R85, 41_checksum.md R105, R109, R110): `ENCODE` and then `DECODE` give the held PDU
back, and a sealed PDU that went this way is valid. -/

namespace Sys2Proof.Machine

/-- A loaded PDU is the held PDU. -/
theorem heldPdu_loadPdu {s : State} {p : Pdu} (hpay : Memory.wf s.pay = true) (hp : p.wf = true) :
    heldPdu (loadPdu p s) = p := by
  have hpayload : payload (loadPdu p s) = p.payload := by
    rw [payload, loadPdu_len, ← Pdu.payload_length hp]
    exact memRead_memWrite hpay 0 p.payload
  rw [heldPdu, hpayload]
  rfl

/-- `DECODE` loads whatever PDU the frame is the encoding of. -/
theorem exec_decode_of_heldFrame {s : State} {p : Pdu} (hp : p.wf = true) (hr : s.flen.toNat ≤ fcap s.cfg)
    (hf : heldFrame s = encodePdu s.cfg.endian p) :
    exec .decode s = .next (finish 0 false false (loadPdu p s)) := by
  simp only [exec, execDecode, (flenInRange_iff s).mpr hr, if_true, hf, decodeFrame_encodePdu hp]

/-- `DECODE` after `ENCODE` loads the PDU that was held, whatever became of the other fields in between. -/
theorem exec_decode_of_encoded {s u : State} (hfrm : Memory.wf s.frm = true) (hr : s.len.toNat ≤ s.cfg.maxSeg.toNat)
    (hcfg : u.cfg = s.cfg) (hf : u.frm = (encoded s).frm) (hn : u.flen = (encoded s).flen) :
    exec .decode u = .next (finish 0 false false (loadPdu (heldPdu s) u)) := by
  refine exec_decode_of_heldFrame (heldPdu_wf s) ?_ ?_
  · rw [hn, hcfg]
    exact encoded_flen_le_fcap hr
  · rw [hcfg, heldFrame, hf, hn]
    exact heldFrame_encoded hfrm

/-! ### The round trip through the commands -/

/-- The state in which command `i` has been issued (20_memory.md R51) and `rest` is still to be taken. -/
def issued (i : Instr) (rest : List Event) (s : State) : State := { issue (encode i) s with script := rest }

/-- The host issues a command to the idle block and the block completes it: two steps. -/
theorem runSteps_command {s t : State} {i : Instr} {rest : List Event} (hb : s.busy = false)
    (hs : s.script = cmdEvent i :: .blockTurn :: rest) (ht : exec i (issued i rest s) = .next t) (k : Nat) :
    runSteps (k + 2) s = runSteps k t := by
  have hwrite := hostWrite_cmd_of_idle (s := { s with script := .blockTurn :: rest }) (encode i) hb
  have hissue : step s = .next (issued i (.blockTurn :: rest) s) :=
    (step_of_cons hs).trans (congrArg Host.Outcome.next hwrite)
  have hturn : step (issued i (.blockTurn :: rest) s) = .next t := by
    rw [step_of_pending (.inl rfl) rfl]
    exact execWord_eq_next_iff.mpr (.inl ⟨i, decode_eq_command_iff.mpr rfl, completion_of_exec ht⟩)
  rw [runSteps_succ hissue, runSteps_succ hturn]

/-- `ENCODE` and `DECODE`, each issued and completed, load the held PDU; `PAY` is not touched before that. -/
theorem runSteps_encode_decode {s : State} (hfrm : Memory.wf s.frm = true) (hb : s.busy = false)
    (hr : s.len.toNat ≤ s.cfg.maxSeg.toNat)
    (hs : s.script = [cmdEvent .encode, .blockTurn, cmdEvent .decode, .blockTurn]) :
    ∃ u, runSteps 4 s = .next (finish 0 false false (loadPdu (heldPdu s) u)) ∧ u.pay = s.pay ∧
      u.flen.toNat = 12 + s.len.toNat := by
  have hencode := exec_encode (s := issued .encode [cmdEvent .decode, .blockTurn] s) hr
  have hdecode := exec_decode_of_encoded (s := issued .encode [cmdEvent .decode, .blockTurn] s)
    (u := issued .decode [] (encoded (issued .encode [cmdEvent .decode, .blockTurn] s))) hfrm hr rfl rfl rfl
  exact ⟨_, (runSteps_command hb hs hencode 2).trans (runSteps_command rfl rfl hdecode 0), rfl, encoded_flen _⟩

/-- Settles O49: the functions by the frame's layout, the commands because `DECODE` loads the PDU that was held. -/
theorem codecRoundTrip : Obligations.CodecRoundTrip := by
  refine ⟨fun e p hp => decodeFrame_encodePdu hp, fun s hpay hfrm hb hr => ?_⟩
  obtain ⟨u, hrun, hu, hflen⟩ := runSteps_encode_decode
    (s := { s with script := [cmdEvent .encode, .blockTurn, cmdEvent .decode, .blockTurn] }) hfrm hb hr rfl
  have hheld : heldPdu (loadPdu (heldPdu s) u) = heldPdu s := heldPdu_loadPdu (hu ▸ hpay) (heldPdu_wf s)
  have hread : memRead (loadPdu (heldPdu s) u).pay 0 s.len.toNat = memRead s.pay 0 s.len.toNat :=
    congrArg Pdu.payload hheld
  exact ⟨_, hrun, rfl, rfl, rfl, rfl, hread, rfl, rfl, hflen⟩

/-! ### A sealed PDU stays valid -/

theorem execAll_cons {i : Instr} {is : List Instr} {s t : State} (h : exec i s = .next t) :
    execAll (i :: is) s = execAll is t := by
  simp only [execAll, h]

/-- The checksum of the held PDU depends on the build and on the held PDU alone (41_checksum.md R104). -/
theorem pduChecksum_congr {s u : State} (hcfg : u.cfg = s.cfg) (hp : heldPdu u = heldPdu s) :
    pduChecksum u = pduChecksum s := by
  have hcovered (v : State) :
      coveredBytes v = hdrBytes v.cfg.endian (heldPdu v).total (heldPdu v).seq (heldPdu v).len ++ (heldPdu v).payload :=
    rfl
  rw [pduChecksum, pduChecksum, hcovered u, hcovered s, hcfg, hp]

/-- `VALIDATE` accepts a PDU in range whose checksum is the stored one, empty or not (41_checksum.md R110). -/
theorem exec_validate_of_checksum {s : State} (hr : s.len.toNat ≤ s.cfg.maxSeg.toNat) (hc : pduChecksum s = s.csum) :
    ∃ crc, exec .validate s = .next (finish 0 true false { s with crc := crc }) := by
  by_cases h0 : s.len = 0
  · exact ⟨s.crc, exec_of_completion (.validateEmpty h0)⟩
  · exact ⟨_, exec_of_completion (.validate h0 hr hc)⟩

/-- The state `SEAL` leaves when it succeeds (41_checksum.md R109). -/
def sealedState (s : State) : State := succeed { s with csum := pduChecksum s, crc := pduChecksum s }

/-- `DECODE` right after `ENCODE` leaves the build and the held PDU what they were (R85). -/
theorem exec_decode_encoded {s : State} (hpay : Memory.wf s.pay = true) (hfrm : Memory.wf s.frm = true)
    (hr : s.len.toNat ≤ s.cfg.maxSeg.toNat) :
    ∃ t, exec .decode (encoded s) = .next t ∧ t.cfg = s.cfg ∧ heldPdu t = heldPdu s :=
  ⟨_, exec_decode_of_encoded hfrm hr rfl rfl rfl, rfl, heldPdu_loadPdu (s := encoded s) hpay (heldPdu_wf s)⟩

/-- Settles O52: the PDU decoded is the PDU sealed, so its checksum is the one stored in it. -/
theorem sealedFramesValidate : Obligations.SealedFramesValidate := by
  intro s hpay hfrm hr
  have hseal : exec .sealPdu s = .next (sealedState s) := exec_of_completion (.sealPdu hr)
  have hencode : exec .encode (sealedState s) = .next (encoded (sealedState s)) := exec_encode hr
  obtain ⟨t, hdecode, hcfg, hheld⟩ := exec_decode_encoded (s := sealedState s) hpay hfrm hr
  have hlen : t.len = s.len := congrArg Pdu.len hheld
  have hcsum : t.csum = pduChecksum s := congrArg Pdu.csum hheld
  have hread : memRead t.pay 0 t.len.toNat = memRead s.pay 0 s.len.toNat := congrArg Pdu.payload hheld
  have hsum : pduChecksum t = pduChecksum s := pduChecksum_congr (s := sealedState s) hcfg hheld
  have hrange : t.len.toNat ≤ t.cfg.maxSeg.toNat := by rw [hlen, hcfg]; exact hr
  obtain ⟨crc, hvalidate⟩ := exec_validate_of_checksum hrange (hsum.trans hcsum.symm)
  refine ⟨finish 0 true false { t with crc := crc }, ?_, rfl, rfl, congrArg Pdu.total hheld, congrArg Pdu.seq hheld,
    hlen, hlen ▸ hread, hcsum⟩
  rw [execAll_cons hseal, execAll_cons hencode, execAll_cons hdecode, execAll_cons hvalidate, execAll]

end Sys2Proof.Machine
end

section
/-! PROOFS. O55, O56, O57 (41_checksum.md R112 to R115): the CRC is affine over xor, can be computed in pieces, and steps
by one byte as its two other forms do. -/

namespace Sys2Proof.Machine

/-! ### One bit -/

theorem crcBit_of_top_false {r : Half} (h : r.getLsbD 15 = false) : crcBit r = r <<< 1 := by
  rw [crcBit, h, if_neg Bool.false_ne_true]

/-- The polynomial ends in 1: the bit shifted out at the top comes back at the bottom. -/
theorem getLsbD_zero_crcBit (r : Half) : (crcBit r).getLsbD 0 = r.getLsbD 15 := by
  unfold crcBit
  cases r.getLsbD 15 <;> simp [crcPoly]

theorem getLsbD_succ_crcBit {r : Half} (h : r.getLsbD 15 = false) {i : Nat} (hi : i < 15) :
    (crcBit r).getLsbD (i + 1) = r.getLsbD i := by
  rw [crcBit_of_top_false h, BitVec.getLsbD_shiftLeft, decide_eq_true (Nat.succ_lt_succ hi)]
  rfl

/-- Only the zero register steps to zero. -/
theorem eq_zero_of_crcBit_eq_zero {r : Half} (h : crcBit r = 0) : r = 0 := by
  have hzero (i : Nat) : (crcBit r).getLsbD i = false := by rw [h]; exact BitVec.getLsbD_zero
  have htop : r.getLsbD 15 = false := (getLsbD_zero_crcBit r).symm.trans (hzero 0)
  refine BitVec.eq_of_getLsbD_eq fun i hi => ?_
  rw [BitVec.ofNat_eq_ofNat, BitVec.getLsbD_zero]
  rcases Nat.lt_succ_iff_lt_or_eq.mp hi with hi | rfl
  · exact (getLsbD_succ_crcBit htop hi).symm.trans (hzero (i + 1))
  · exact htop

/-- Shifting is linear, and the polynomial is added for an odd number of top bits: two additions cancel. -/
theorem crcBit_xor (x y : Half) : crcBit (x ^^^ y) = crcBit x ^^^ crcBit y := by
  have hshift : (x ^^^ y) <<< 1 = x <<< 1 ^^^ y <<< 1 := BitVec.shiftLeft_xor_distrib x y 1
  unfold crcBit
  rw [BitVec.getLsbD_xor, hshift]
  cases x.getLsbD 15 <;> cases y.getLsbD 15
  · rfl
  · exact BitVec.xor_assoc _ _ _
  · change (x <<< 1 ^^^ y <<< 1) ^^^ crcPoly = (x <<< 1 ^^^ crcPoly) ^^^ y <<< 1
    ac_rfl
  · change x <<< 1 ^^^ y <<< 1 = (x <<< 1 ^^^ crcPoly) ^^^ (y <<< 1 ^^^ crcPoly)
    grind

/-! ### Several bits -/

theorem crcBits_xor (n : Nat) (x y : Half) : crcBits n (x ^^^ y) = crcBits n x ^^^ crcBits n y := by
  induction n generalizing x y with
  | zero => rfl
  | succ n ih => rw [crcBits, crcBit_xor, ih, crcBits, crcBits]

theorem eq_zero_of_crcBits_eq_zero {n : Nat} {r : Half} (h : crcBits n r = 0) : r = 0 := by
  induction n generalizing r with
  | zero => exact h
  | succ n ih => exact eq_zero_of_crcBit_eq_zero (ih h)

theorem crcBits_zero (n : Nat) : crcBits n 0 = 0 := by
  induction n with
  | zero => rfl
  | succ n ih => exact ih

theorem crcBits_injective (n : Nat) : Function.Injective (crcBits n) := fun x y h => by
  have hxor : crcBits n (x ^^^ y) = 0 := by rw [crcBits_xor, h]; exact BitVec.xor_self
  exact BitVec.xor_eq_zero_iff.mp (eq_zero_of_crcBits_eq_zero hxor)

/-! ### Bytes -/

theorem highByte_xor (a b : Byte) : highByte (a ^^^ b) = highByte a ^^^ highByte b := by
  rw [highByte, highByte, highByte, BitVec.xor_append, BitVec.xor_self]
  rfl

theorem crcByte_xor (r1 r2 : Half) (a b : Byte) : crcByte (r1 ^^^ r2) (a ^^^ b) = crcByte r1 a ^^^ crcByte r2 b := by
  have hxor : r1 ^^^ r2 ^^^ highByte (a ^^^ b) = (r1 ^^^ highByte a) ^^^ (r2 ^^^ highByte b) := by
    rw [highByte_xor]
    ac_rfl
  rw [crcByte, hxor, crcBits_xor]
  rfl

theorem crcBytes_xorBytes (r1 r2 : Half) {a b : List Byte} (h : a.length = b.length) :
    crcBytes (r1 ^^^ r2) (xorBytes a b) = crcBytes r1 a ^^^ crcBytes r2 b := by
  induction a generalizing b r1 r2 with
  | nil => rw [List.length_eq_zero_iff.mp h.symm]; rfl
  | cons x xs ih =>
    cases b with
    | nil => simp at h
    | cons y ys =>
      change crcBytes (crcByte (r1 ^^^ r2) (x ^^^ y)) (xorBytes xs ys) = _
      rw [crcByte_xor, ih _ _ (Nat.succ.inj h)]
      rfl

theorem checksum16_xorBytes {a e : List Byte} (h : a.length = e.length) :
    checksum16 (xorBytes a e) = checksum16 a ^^^ crcBytes 0 e := by
  rw [checksum16, checksum16, ← crcBytes_xorBytes crcInit 0 h, BitVec.ofNat_eq_ofNat, BitVec.xor_zero]

/-- Settles O57: each level is affine because the one below it is. -/
theorem crcAffinity : Obligations.CrcAffinity :=
  ⟨crcBit_xor, fun r1 r2 _ _ h => crcBytes_xorBytes r1 r2 h, fun _ _ h => checksum16_xorBytes h⟩

theorem crcBytes_append (r : Half) (a b : List Byte) : crcBytes r (a ++ b) = crcBytes (crcBytes r a) b :=
  List.foldl_append

/-- Settles O56: a fold over bytes can stop between any two of them. -/
theorem crcComposition : Obligations.CrcComposition := crcBytes_append

/-! ### The other forms of the byte step -/

/-- A register is its two bytes, and a message byte goes into the high one. -/
theorem xor_highByte (r : Half) (b : Byte) :
    r ^^^ highByte b = ((0 : Byte) ++ r.extractLsb' 0 8) ^^^ highByte (r.extractLsb' 8 8 ^^^ b) := by
  have hbytes : r = r.extractLsb' 8 8 ++ r.extractLsb' 0 8 :=
    ((BitVec.extractLsb'_append_extractLsb'_eq_extractLsb' (len₁ := 8) rfl).trans BitVec.extractLsb'_eq_self).symm
  conv => lhs; rw [hbytes, highByte, BitVec.xor_append]
  rw [highByte, BitVec.xor_append, BitVec.ofNat_eq_ofNat, BitVec.zero_xor]

/-- In a register below 256 no bit reaches the top within eight steps. -/
theorem crcBits_lowByte (b : Byte) : crcBits 8 ((0 : Byte) ++ b) = b ++ (0 : Byte) := by
  revert b
  decide

theorem half_shiftLeft_eight (r : Half) : r <<< 8 = r.extractLsb' 0 8 ++ (0 : Byte) :=
  BitVec.shiftLeft_eq_concat_of_lt (by decide)

/-- The low byte moves up unchanged; what the step adds depends on the high byte and the message byte together. -/
theorem crcByte_eq_table (r : Half) (b : Byte) : crcByte r b = crcByteTable r b := by
  rw [crcByte, xor_highByte, crcBits_xor, crcBits_lowByte, ← half_shiftLeft_eight, crcByteTable, crcTable, crcByte,
    BitVec.ofNat_eq_ofNat, BitVec.zero_xor]

theorem crcTable_eq_closed (t : Byte) : crcTable t = crcByteClosed 0 t := by
  revert t
  decide

theorem crcByteClosed_eq_table (r : Half) (b : Byte) :
    crcByteClosed r b = (r <<< 8) ^^^ crcByteClosed 0 (r.extractLsb' 8 8 ^^^ b) := by
  simp [crcByteClosed, BitVec.xor_assoc]

/-- Settles O55: both forms shift the low byte up and add a function of one byte, and these functions agree on all 256
bytes. -/
theorem crcByteForms : Obligations.CrcByteForms := by
  refine ⟨fun r b => ⟨?_, crcByte_eq_table r b⟩, by decide⟩
  rw [crcByte_eq_table, crcByteTable, crcTable_eq_closed, ← crcByteClosed_eq_table]

end Sys2Proof.Machine
end

section
/-! PROOFS. O58 (41_checksum.md R116): a burst of up to 16 bits changes the checksum. The CRC is taken one message
bit at a time. -/

namespace Sys2Proof.Machine

/-! ### The CRC bit by bit -/

/-- A message bit at the top of a register, where R101 puts the most significant bit of a byte. -/
def highBit (b : Bool) : Half := if b then 0x8000 else 0

/-- The register after one message bit. -/
def feedBit (r : Half) (b : Bool) : Half := crcBit (r ^^^ highBit b)

/-- The register after the bits of a list in order. -/
def feedBits (r : Half) (bits : List Bool) : Half := bits.foldl feedBit r

/-- The bits of a byte in the order the CRC takes them. -/
def byteBits (b : Byte) : List Bool := (List.range 8).map fun j => b.getLsbD (7 - j)

/-- The bits of a message in the order the CRC takes them. -/
def messageBits (m : List Byte) : List Bool := (List.range (8 * m.length)).map (messageBit m)

theorem feedBits_append (r : Half) (v w : List Bool) : feedBits r (v ++ w) = feedBits (feedBits r v) w :=
  List.foldl_append

theorem feedBit_eq_xor (r : Half) (b : Bool) : feedBit r b = crcBit r ^^^ feedBit 0 b := by
  rw [feedBit, feedBit, ← crcBit_xor, BitVec.ofNat_eq_ofNat, BitVec.zero_xor]

/-- The register's part of the result does not depend on the message. -/
theorem feedBits_eq_xor (r : Half) (w : List Bool) : feedBits r w = crcBits w.length r ^^^ feedBits 0 w := by
  induction w generalizing r with
  | nil => exact BitVec.xor_zero.symm
  | cons b w ih =>
    calc feedBits (feedBit r b) w
      _ = crcBits w.length (crcBit r ^^^ feedBit 0 b) ^^^ feedBits 0 w := by rw [ih, feedBit_eq_xor]
      _ = crcBits w.length (crcBit r) ^^^ (crcBits w.length (feedBit 0 b) ^^^ feedBits 0 w) := by
        rw [crcBits_xor, BitVec.xor_assoc]
      _ = crcBits w.length (crcBit r) ^^^ feedBits (feedBit 0 b) w := by rw [← ih]

/-- A byte can be fed at once or bit by bit. -/
theorem crcBits_highByte (b : Byte) : crcBits 8 (highByte b) = feedBits 0 (byteBits b) := by
  revert b
  decide

/-- The byte step is eight bit steps (R101). -/
theorem crcByte_eq_feedBits (r : Half) (b : Byte) : crcByte r b = feedBits r (byteBits b) := by
  rw [crcByte, crcBits_xor, crcBits_highByte, feedBits_eq_xor r]
  rfl

theorem messageBit_cons_add_eight (b : Byte) (m : List Byte) (j : Nat) :
    messageBit (b :: m) (8 + j) = messageBit m j := by
  have hdiv : (8 + j) / 8 = j / 8 + 1 := by omega
  have hmod : (8 + j) % 8 = j % 8 := by omega
  rw [messageBit, messageBit, hdiv, hmod, List.getElem?_cons_succ]

theorem messageBits_cons (b : Byte) (m : List Byte) : messageBits (b :: m) = byteBits b ++ messageBits m := by
  have hlength : 8 * (b :: m).length = 8 + 8 * m.length := by rw [List.length_cons]; omega
  rw [messageBits, hlength, List.range_add, List.map_append, List.map_map]
  exact congrArg (byteBits b ++ ·) (List.map_congr_left fun j _ => messageBit_cons_add_eight b m j)

/-- The CRC of a message takes its bits in the order of `messageBit`. -/
theorem crcBytes_eq_feedBits (r : Half) (m : List Byte) : crcBytes r m = feedBits r (messageBits m) := by
  induction m generalizing r with
  | nil => rfl
  | cons b m ih =>
    rw [messageBits_cons, feedBits_append, ← crcByte_eq_feedBits, ← ih]
    rfl

/-- Beyond its end a message has no 1 bits. -/
theorem messageBits_getElem?_eq_some_true {m : List Byte} {j : Nat} :
    (messageBits m)[j]? = some true ↔ messageBit m j = true := by
  by_cases hj : j < 8 * m.length
  · simp [messageBits, List.getElem?_range hj]
  · have hnone : m[j / 8]? = none := List.getElem?_eq_none (by omega)
    simp [messageBits, messageBit, hnone, hj]

/-! ### Bursts -/

/-- Zero bits only shift the register. -/
theorem feedBits_of_all_false {w : List Bool} (h : ∀ b ∈ w, b = false) (r : Half) :
    feedBits r w = crcBits w.length r := by
  induction w generalizing r with
  | nil => rfl
  | cons b w ih =>
    obtain ⟨rfl, hw⟩ := List.forall_mem_cons.mp h
    rw [feedBits, List.foldl_cons, ← feedBits, ih hw, feedBit, highBit, if_neg Bool.false_ne_true,
      BitVec.ofNat_eq_ofNat, BitVec.xor_zero]
    rfl

theorem getLsbD_highBit (b : Bool) (i : Nat) : (highBit b).getLsbD i = (b && decide (i = 15)) := by
  cases b with
  | false => exact BitVec.getLsbD_zero
  | true =>
    have hpow : highBit true = BitVec.twoPow 16 15 := rfl
    rw [hpow, BitVec.getLsbD_twoPow]
    simp [eq_comm]

/-- At most 16 bits that bring the register to zero are the register's own bits from the top down. -/
theorem getLsbD_of_feedBits_eq_zero {w : List Bool} {r : Half} (hw : w.length ≤ 16) (h : feedBits r w = 0)
    {k : Nat} (hk : k < 16) : r.getLsbD (15 - k) = w[k]?.getD false := by
  induction w generalizing r k with
  | nil =>
    have hr : r = 0 := h
    simp [hr]
  | cons b w ih =>
    rw [List.length_cons] at hw
    have hrest {k : Nat} (hk : k < 16) : (feedBit r b).getLsbD (15 - k) = w[k]?.getD false := ih (by omega) h hk
    have hlow : (feedBit r b).getLsbD 0 = false := by
      rw [hrest (k := 15) (by omega), List.getElem?_eq_none (by omega), Option.getD_none]
    have htop : (r ^^^ highBit b).getLsbD 15 = false := (getLsbD_zero_crcBit _).symm.trans hlow
    cases k with
    | zero =>
      rw [BitVec.getLsbD_xor, getLsbD_highBit] at htop
      simpa using htop
    | succ k =>
      have hindex : 15 - k = 15 - (k + 1) + 1 := by omega
      rw [List.getElem?_cons_succ, ← hrest (by omega), hindex, feedBit, getLsbD_succ_crcBit htop (by omega),
        BitVec.getLsbD_xor, getLsbD_highBit, decide_eq_false (by omega), Bool.and_false, Bool.xor_false]

theorem all_false_of_getElem?_ne {w : List Bool} (h : ∀ i : Nat, w[i]? ≠ some true) : ∀ b ∈ w, b = false := by
  intro b hb
  obtain ⟨i, hi⟩ := List.mem_iff_getElem?.mp hb
  exact Bool.eq_false_of_not_eq_true fun hb => h i (hb ▸ hi)

/-- The zero bits before a burst leave the register zero, the zero bits after it lose nothing, and the burst itself
would have to repeat the bits of the zero register. -/
theorem feedBits_ne_zero_of_burst {w : List Bool} {first j : Nat} (hj : w[j]? = some true)
    (hburst : ∀ i, w[i]? = some true → first ≤ i ∧ i < first + 16) : feedBits 0 w ≠ 0 := by
  intro h
  have hbefore : ∀ b ∈ w.take first, b = false := all_false_of_getElem?_ne fun i hi => by
    rw [List.getElem?_take, Option.ite_none_right_eq_some] at hi
    obtain ⟨hlt, hi⟩ := hi
    have := hburst i hi
    omega
  have hafter : ∀ b ∈ (w.drop first).drop 16, b = false := all_false_of_getElem?_ne fun i hi => by
    rw [List.getElem?_drop, List.getElem?_drop] at hi
    have := hburst _ hi
    omega
  rw [← List.take_append_drop first w, feedBits_append, feedBits_of_all_false hbefore, crcBits_zero,
    ← List.take_append_drop 16 (w.drop first), feedBits_append, feedBits_of_all_false hafter] at h
  obtain ⟨hfirst, hlast⟩ := hburst j hj
  have hbit := getLsbD_of_feedBits_eq_zero (List.length_take_le 16 _) (eq_zero_of_crcBits_eq_zero h)
    (k := j - first) (by omega)
  have hj' : ((w.drop first).take 16)[j - first]? = some true := by
    rw [List.getElem?_take_of_lt (by omega), List.getElem?_drop, Nat.add_sub_cancel' hfirst, hj]
  rw [hj'] at hbit
  simp at hbit

/-- Settles O58: the difference of the two checksums is the CRC of the error pattern from the zero register, and a burst
does not leave the register zero. -/
theorem shortErrorsAreDetected : Obligations.ShortErrorsAreDetected := by
  intro m e first hlength ⟨j, hj⟩ hburst hsame
  rw [checksum16_xorBytes hlength, crcBytes_eq_feedBits] at hsame
  exact feedBits_ne_zero_of_burst (messageBits_getElem?_eq_some_true.mpr hj)
    (fun i hi => hburst i (messageBits_getElem?_eq_some_true.mp hi)) (xor_left_eq_self_iff.mp hsame)

end Sys2Proof.Machine
end

section
/-! PROOFS. O15 to O19, O60 (41_checksum.md R103, R106 to R110): the checksum commands. -/

namespace Sys2Proof.Machine

/-! ### The raw checksum -/

/-- The check value of the CRC (R118). -/
theorem checksum16_digits : checksum16 [0x31, 0x32, 0x33, 0x34, 0x35, 0x36, 0x37, 0x38, 0x39] = 0x29B1 := by
  decide +kernel

/-- Settles O60: the fold is the definition, and the values are computed. -/
theorem checksumValues : Obligations.ChecksumValues :=
  ⟨by decide, checksum16_digits, by decide, by decide, by decide, fun _ => rfl⟩

/-- Settles O15: `CRCINIT` has one way to end. -/
theorem crcinitStartsAChecksum : Obligations.CrcinitStartsAChecksum :=
  ⟨by decide, fun _ => exec_of_completion .crcinit⟩

/-- Settles O17: the two ways `CRCBUF` can end. -/
theorem crcbufIsTheRawChecksum : Obligations.CrcbufIsTheRawChecksum :=
  ⟨by decide, fun _ hr => exec_of_completion (.crcbuf hr), fun _ hr => exec_of_completion (.crcbufRange hr),
    fun _ => rfl, checksum16_digits⟩

/-- One `CRCBYTE` for each byte of a message feeds the message to `CRC`. -/
theorem execAll_crcbytes (m : List Byte) (s : State) :
    execAll (m.map .crcbyte) (succeed s) = .next (succeed { s with crc := crcBytes s.crc m }) := by
  induction m generalizing s with
  | nil => rfl
  | cons b m ih =>
    have hstep : exec (.crcbyte b) (succeed s) = .next (succeed { s with crc := crcByte s.crc b }) := rfl
    rw [List.map_cons, execAll_cons hstep, ih]
    rfl

/-- Settles O16: `CRCINIT` starts the fold over the message that the `CRCBYTE`s carry on. -/
theorem crcbyteFeedsOneByte : Obligations.CrcbyteFeedsOneByte := by
  refine ⟨fun b => ?_, fun b _ => exec_of_completion (.crcbyte b), fun m b => (crcBytes_append crcInit m [b]).symm,
    fun m s => ⟨_, ?_, rfl⟩, by decide, by decide, by decide, by decide +kernel⟩
  · have hb := b.isLt
    apply BitVec.eq_of_toNat_eq
    rw [encode_toNat, BitVec.toNat_ofNat, Nat.mod_eq_of_lt (by omega), Nat.add_comm]
    rfl
  · rw [execAll_cons (exec_of_completion .crcinit)]
    exact execAll_crcbytes m { s with crc := crcInit }

/-! ### The held PDU -/

/-- A sealed PDU stores its own checksum, which is not among the bytes it covers (R104, R109). -/
theorem pduValid_sealedState (s : State) : pduValid (sealedState s) = true := (pduValid_iff _).mpr (.inr rfl)

/-- Settles O18: the two ways `SEAL` can end. -/
theorem sealStoresThePduChecksum : Obligations.SealStoresThePduChecksum :=
  ⟨by decide, fun s hr => ⟨sealedState s, exec_of_completion (.sealPdu hr), rfl, pduValid_sealedState s⟩,
    fun _ hr => exec_of_completion (.sealRange hr), by decide +kernel, by decide +kernel⟩

/-- `VALIDATE` shows the predicate in `VALID`, unless it could not evaluate it. -/
theorem validate_valid_iff {s t : State} (h : exec .validate s = .next t) :
    t.valid = true ↔ pduValid s = true ∧ t.errcode ≠ 3 := by
  rw [pduValid_iff]
  cases completion_of_exec h with
  | validateEmpty h0 => exact iff_of_true rfl ⟨.inl h0, show (0 : Byte) ≠ 3 by decide⟩
  | validate h0 hr hc => exact iff_of_true rfl ⟨.inr hc, show (0 : Byte) ≠ 3 by decide⟩
  | validateMismatch h0 hr hc => exact iff_of_false Bool.false_ne_true fun ⟨hv, _⟩ => hv.elim h0 hc
  | validateRange h0 hr => exact iff_of_false Bool.false_ne_true fun ⟨_, hcode⟩ => hcode rfl

/-- Settles O19: the four ways `VALIDATE` can end. -/
theorem validateEvaluatesThePredicate : Obligations.ValidateEvaluatesThePredicate :=
  ⟨by decide, fun _ => decide_eq_true_iff, fun _ h0 => exec_of_completion (.validateEmpty h0),
    fun _ h0 hr => exec_of_completion (.validateRange h0 hr), fun _ h0 hr hc => exec_of_completion (.validate h0 hr hc),
    fun _ h0 hr hc => exec_of_completion (.validateMismatch h0 hr hc), fun _ _ h => validate_valid_iff h,
    by decide +kernel⟩

end Sys2Proof.Machine
end

section
/-! PROOFS. O53, O59 (41_checksum.md R110, R116, R117): a sealed PDU with a changed payload byte, and the residue of a
sealed frame. -/

namespace Sys2Proof.Machine

/-! ### A changed byte -/

theorem crcByte_left_injective (b : Byte) : Function.Injective (crcByte · b) := fun _ _ h =>
  (BitVec.xor_left_inj _).mp (crcBits_injective 8 h)

theorem highByte_injective : Function.Injective highByte := fun _ _ h => (BitVec.append_left_inj _).mp h

theorem crcByte_right_injective (r : Half) : Function.Injective (crcByte r) := fun _ _ h =>
  highByte_injective ((BitVec.xor_right_inj r).mp (crcBits_injective 8 h))

theorem crcBytes_left_injective (m : List Byte) : Function.Injective (crcBytes · m) := by
  induction m with
  | nil => exact Function.injective_id
  | cons b m ih => exact ih.comp (crcByte_left_injective b)

/-- The bytes before the changed one bring both registers to the same value, the changed byte to different ones, and the
bytes after it keep them apart. -/
theorem checksum16_changed_byte (p q : List Byte) {x y : Byte} (h : x ≠ y) :
    checksum16 (p ++ x :: q) ≠ checksum16 (p ++ y :: q) := by
  intro hsame
  rw [checksum16, checksum16, crcBytes_append, crcBytes_append] at hsame
  exact h (crcByte_right_injective _ (crcBytes_left_injective q hsame))

theorem memRead_add (m : Memory) (i n k : Nat) : memRead m i (n + k) = memRead m i n ++ memRead m (i + n) k := by
  induction n generalizing i with
  | zero => rw [Nat.zero_add]; rfl
  | succ n ih => rw [Nat.succ_add, memRead, memRead, ih, Nat.succ_add_eq_add_succ, List.cons_append]

/-- Changing a byte of the payload changes the checksum of the held PDU. -/
theorem pduChecksum_set_pay {s : State} {i : Nat} {b : Byte} (hpay : Memory.wf s.pay = true) (hi : i < s.len.toNat)
    (hb : b ≠ Memory.get s.pay i) : pduChecksum { s with pay := Memory.set s.pay i b } ≠ pduChecksum s := by
  obtain ⟨k, hk⟩ : ∃ k, s.len.toNat = i + (k + 1) := ⟨s.len.toNat - (i + 1), by omega⟩
  have hsplit (m : Memory) : pduChecksum { s with pay := m } =
      checksum16 ((hdrBytes s.cfg.endian s.total s.seq s.len ++ memRead m 0 i) ++ m.get i :: memRead m (i + 1) k) := by
    simp only [pduChecksum, coveredBytes, payload, hk, memRead_add, memRead, List.append_assoc, Nat.zero_add]
  have hget (a : Nat) := Memory.get_set hpay i b a
  have hbefore : memRead (Memory.set s.pay i b) 0 i = memRead s.pay 0 i :=
    memRead_congr fun a _ ha => (hget a).trans (if_neg (by omega))
  have hafter : memRead (Memory.set s.pay i b) (i + 1) k = memRead s.pay (i + 1) k :=
    memRead_congr fun a ha _ => (hget a).trans (if_neg (by omega))
  have hat : Memory.get (Memory.set s.pay i b) i = b := (hget i).trans (if_pos rfl)
  rw [hsplit, hbefore, hafter, hat, hsplit s.pay]
  exact checksum16_changed_byte _ _ hb

/-- Settles O53: the checksum stored by `SEAL` is that of the payload before the change. -/
theorem changedPayloadByteIsDetected : Obligations.ChangedPayloadByteIsDetected := by
  intro s t i b hpay hr hseal hi hb
  cases completion_of_exec hseal with
  | sealRange hr' => exact absurd hr (by omega)
  | sealPdu =>
    have h0 : s.len ≠ 0 := fun h0 => absurd hi (by simp [h0])
    exact ⟨_, exec_of_completion (.validateMismatch h0 hr (pduChecksum_set_pay hpay hi hb)), rfl, rfl⟩

/-! ### The residue -/

/-- The register's own high byte clears it there, and the step moves the low byte up. -/
theorem crcByte_own_highByte (r : Half) : crcByte r (r.extractLsb' 8 8) = highByte (r.extractLsb' 0 8) := by
  have hzero : highByte (0#8) = 0#16 := rfl
  rw [crcByte, xor_highByte, BitVec.xor_self, hzero, BitVec.xor_zero, crcBits_lowByte]
  rfl

theorem crcByte_highByte_same (b : Byte) : crcByte (highByte b) b = 0 := by
  rw [crcByte, BitVec.xor_self]
  exact crcBits_zero 8

/-- The bytes of the register itself bring it to zero, the high one first. -/
theorem crcBytes_own_bytes (r : Half) : crcBytes r [r.extractLsb' 8 8, r.extractLsb' 0 8] = 0 := by
  rw [crcBytes, List.foldl_cons, List.foldl_cons, crcByte_own_highByte, crcByte_highByte_same]
  rfl

theorem checksum16_append_own_bytes (m : List Byte) :
    checksum16 (m ++ [(checksum16 m).extractLsb' 8 8] ++ [(checksum16 m).extractLsb' 0 8]) = 0 := by
  rw [List.append_assoc, checksum16, crcBytes_append]
  exact crcBytes_own_bytes _

/-- A sealed big-endian frame is the bytes covered and the two bytes of their checksum, most significant first. -/
theorem encodePdu_sealedState {s : State} (he : s.cfg.endian = .big) :
    encodePdu s.cfg.endian (heldPdu (sealedState s)) =
      coveredBytes s ++ [(pduChecksum s).extractLsb' 8 8] ++ [(pduChecksum s).extractLsb' 0 8] := by
  change coveredBytes s ++ ser 2 s.cfg.endian (pduChecksum s) = _
  rw [he, (serialisationFollowsEndian.1 (pduChecksum s)).2, List.append_assoc]
  rfl

/-- Settles O59: `CRCBUF` takes the sealed frame, which ends in its own checksum. -/
theorem residueIsZero : Obligations.ResidueIsZero := by
  refine ⟨checksum16_append_own_bytes, fun s hfrm he hr => ?_, by decide +kernel⟩
  have hseal : exec .sealPdu s = .next (sealedState s) := exec_of_completion (.sealPdu hr)
  have hencode : exec .encode (sealedState s) = .next (encoded (sealedState s)) := exec_encode hr
  have hcrcbuf := exec_of_completion (.crcbuf (encoded_flen_le_fcap (s := sealedState s) hr))
  have hframe : heldFrame (encoded (sealedState s)) =
      coveredBytes s ++ [(pduChecksum s).extractLsb' 8 8] ++ [(pduChecksum s).extractLsb' 0 8] :=
    (heldFrame_encoded (s := sealedState s) hfrm).trans (encodePdu_sealedState he)
  refine ⟨_, (execAll_cons hseal).trans ((execAll_cons hencode).trans (execAll_cons hcrcbuf)), rfl, ?_⟩
  exact (congrArg checksum16 hframe).trans (checksum16_append_own_bytes _)

end Sys2Proof.Machine
end

section
/-! PROOFS. O5, O6, O9, O13, O14 (42_control.md R130 to R134, R137): completion, the control commands and the illegal
word. -/

namespace Sys2Proof.Machine

/-! ### The completion of the pending word -/

theorem execWord_of_command {w : Word} {i : Instr} (h : decode w = .command i) (s : State) :
    execWord w s = exec i s := by
  simp only [execWord, h]

/-- Settles O5: the block's turn is the completion of the pending word, and a legal one is completed by its command. -/
theorem stepRunsTheDecodedCommand : Obligations.StepRunsTheDecodedCommand :=
  fun _ _ _ hb hm hd => (step_of_pending hm hb).trans (execWord_of_command hd _)

theorem errFlag_of_illegalCommand {s : State} (h : s.errcode = 4) : errFlag s = true := by
  simp [errFlag, h]

/-- Settles O6: the block's turn is the completion of the pending word, and an illegal one raises `IllegalCommand`. -/
theorem illegalWordCompletesWithCodeFour : Obligations.IllegalWordCompletesWithCodeFour :=
  ⟨fun _ _ _ hb hm hd => (step_of_pending hm hb).trans (execWord_of_illegal hd _),
    fun _ => errFlag_of_illegalCommand, by decide⟩

/-! ### What every command has in common -/

/-- An error other than `ChecksumMismatch` writes only the result flags (R131, 60_exceptions.md R146). -/
theorem Completion.eq_finish_of_error {i : Instr} {s t : State} (hc : Completion s i t) (h0 : t.errcode ≠ 0)
    (h2 : t.errcode ≠ 2) : t = finish t.errcode false false s := by
  cases hc
  case crcbufRange | sealRange | encodeRange | decodeMalformed | decodeRange | validateRange => rfl
  case validateMismatch => exact absurd rfl h2
  case nop | crcinit | crcbyte | crcbuf | sealPdu | encode | decode | validateEmpty | validate | clr =>
    exact absurd rfl h0

/-- Every way a command can end is a `finish` (R131). -/
theorem Completion.ends {i : Instr} {s t : State} (hc : Completion s i t) : t.busy = false ∧ t.done = true := by
  cases hc <;> exact ⟨rfl, rfl⟩

/-- Settles O9: what the ways a command can end have in common, and the one way an illegal word ends. -/
theorem everyCommandFinishes : Obligations.EveryCommandFinishes := by
  refine ⟨fun i s => ?_, fun _ => rfl⟩
  obtain ⟨t, ht, hc⟩ := exec_completes i s
  obtain ⟨hbusy, hdone⟩ := hc.ends
  obtain ⟨-, hhsfault, hpend, -⟩ := hc.keeps_host_side
  refine ⟨t, ht, hbusy, hdone, hhsfault, hpend, fun he => hc.eq_finish_of_error ?_ ?_⟩
  · rcases he with he | he <;> simp [he]
  · rcases he with he | he <;> simp [he]

/-! ### `NOP` and `CLR` -/

/-- Settles O13: `NOP` has one way to end. -/
theorem nopWritesOnlyResultFlags : Obligations.NopWritesOnlyResultFlags :=
  ⟨by decide, fun _ => exec_of_completion .nop⟩

/-- Settles O14: `CLR` has one way to end, and the PDU it leaves is empty. -/
theorem clrRestoresTheRegisters : Obligations.ClrRestoresTheRegisters :=
  ⟨by decide, fun _ => ⟨_, exec_of_completion .clr, rfl, rfl, (pduValid_iff _).mpr (.inl rfl)⟩⟩

end Sys2Proof.Machine
end

section
/-! PROOFS. O10, O11, O22 to O25 (60_exceptions.md R140 to R147): which errors a command ends with, in which order they
are tested, and what an error changes. -/

namespace Sys2Proof.Machine

/-! ### The causes of an error -/

/-- The cause on state `s` by which command `i` ends with error `e`, with the tests that come before it passed (R147). -/
inductive Failure (s : State) : Instr → CommandError → Prop where
  | malformed (hr : s.flen.toNat ≤ fcap s.cfg) (hm : s.flen.toNat < 12 ∨ declaredLength s + 12 > s.flen.toNat) :
      Failure s .decode .malformedPdu
  | mismatch (h0 : s.len ≠ 0) (hr : s.len.toNat ≤ s.cfg.maxSeg.toNat) (hc : pduChecksum s ≠ s.csum) :
      Failure s .validate .checksumMismatch
  | pduRange {i : Instr} (hi : i ∈ [Instr.sealPdu, .encode, .validate]) (hr : s.len.toNat > s.cfg.maxSeg.toNat) :
      Failure s i .lengthRange
  | frameRange {i : Instr} (hi : i ∈ [Instr.decode, .crcbuf]) (hr : s.flen.toNat > fcap s.cfg) :
      Failure s i .lengthRange

/-- The state a command leaves when it ends with error `e` (R146): `VALIDATE` has run the checksum engine by then. -/
def failed (e : CommandError) (s : State) : State :=
  match e with
  | .checksumMismatch => raise e { s with crc := pduChecksum s }
  | .malformedPdu | .lengthRange | .illegalCommand => raise e s

theorem failed_errcode (e : CommandError) (s : State) : (failed e s).errcode = errCode e := by
  cases e <;> rfl

theorem errCode_ne_zero (e : CommandError) : errCode e ≠ 0 := by
  cases e <;> decide

theorem errCode_injective : Function.Injective errCode := by
  intro a b
  cases a <;> cases b <;> decide

/-- An empty PDU is never out of range, so `VALIDATE` of one does not end with `LengthRange` (R143). -/
theorem len_ne_zero_of_maxSeg_lt {s : State} (hr : s.cfg.maxSeg.toNat < s.len.toNat) : s.len ≠ 0 := by
  intro h0
  simp [h0] at hr

/-- A cause is enough: the command ends with its error. -/
theorem exec_of_failure {i : Instr} {e : CommandError} {s : State} (h : Failure s i e) :
    exec i s = .next (failed e s) := by
  cases h with
  | malformed hr hm => exact exec_of_completion (.decodeMalformed hr hm)
  | mismatch h0 hr hc => exact exec_of_completion (.validateMismatch h0 hr hc)
  | pduRange hi hr =>
    simp only [List.mem_cons, List.not_mem_nil, or_false] at hi
    rcases hi with rfl | rfl | rfl
    · exact exec_of_completion (.sealRange hr)
    · exact exec_of_completion (.encodeRange hr)
    · exact exec_of_completion (.validateRange (len_ne_zero_of_maxSeg_lt hr) hr)
  | frameRange hi hr =>
    simp only [List.mem_cons, List.not_mem_nil, or_false] at hi
    rcases hi with rfl | rfl
    · exact exec_of_completion (.decodeRange hr)
    · exact exec_of_completion (.crcbufRange hr)

/-- A cause is needed: a command that ends with an error has one. -/
theorem Completion.failure {i : Instr} {s t : State} (hc : Completion s i t) (h0 : t.errcode ≠ 0) :
    ∃ e, Failure s i e ∧ t = failed e s := by
  cases hc
  case decodeMalformed hr hm => exact ⟨_, .malformed hr hm, rfl⟩
  case validateMismatch hlen hr hsum => exact ⟨_, .mismatch hlen hr hsum, rfl⟩
  case sealRange hr | encodeRange hr => exact ⟨_, .pduRange (by simp) hr, rfl⟩
  case validateRange _ hr => exact ⟨_, .pduRange (by simp) hr, rfl⟩
  case decodeRange hr | crcbufRange hr => exact ⟨_, .frameRange (by simp) hr, rfl⟩
  case nop | crcinit | crcbyte | crcbuf | sealPdu | encode | decode | validateEmpty | validate | clr =>
    exact absurd rfl h0

/-- A command ends with the code of an error exactly when it has a cause for that error. -/
theorem errcode_eq_errCode_iff {i : Instr} {s t : State} (h : exec i s = .next t) {e : CommandError} :
    t.errcode = errCode e ↔ Failure s i e := by
  constructor
  · intro he
    obtain ⟨e', hf, rfl⟩ := (completion_of_exec h).failure (he ▸ errCode_ne_zero e)
    exact errCode_injective ((failed_errcode e' s).symm.trans he) ▸ hf
  · intro hf
    obtain rfl : t = failed e s := Host.Outcome.next.inj (h.symm.trans (exec_of_failure hf))
    exact failed_errcode e s

/-! ### What an error changes -/

/-- Settles O10: the state a failing command leaves, which for `ChecksumMismatch` alone has a new `CRC`. -/
theorem errorsArePrecise : Obligations.ErrorsArePrecise := by
  intro i s t h h0
  obtain ⟨e, -, rfl⟩ := (completion_of_exec h).failure h0
  cases e with
  | checksumMismatch => exact ⟨rfl, fun h2 => absurd rfl h2⟩
  | malformedPdu | lengthRange | illegalCommand => exact ⟨rfl, fun _ => rfl⟩

/-! ### The code of each error -/

/-- No command of the table has a cause for `IllegalCommand`, so its code stays below 4 (R140). -/
theorem errcode_toNat_le_three {i : Instr} {s t : State} (h : exec i s = .next t) : t.errcode.toNat ≤ 3 := by
  by_cases h0 : t.errcode = 0
  · simp [h0]
  · obtain ⟨e, hf, rfl⟩ := (completion_of_exec h).failure h0
    rw [failed_errcode]
    cases hf <;> decide

/-- Settles O11: the causes of each code name its commands, and code 4 comes from the illegal words. -/
theorem errorCodesBelongToTheirCommands : Obligations.ErrorCodesBelongToTheirCommands := by
  refine ⟨rfl, rfl, rfl, rfl, fun i s t h => ⟨errcode_toNat_le_three h, fun h1 => ?_, fun h2 => ?_, fun h3 => ?_⟩,
    fun w s t h => ?_⟩
  · cases (errcode_eq_errCode_iff (e := .malformedPdu) h).mp h1
    rfl
  · cases (errcode_eq_errCode_iff (e := .checksumMismatch) h).mp h2
    rfl
  · cases (errcode_eq_errCode_iff (e := .lengthRange) h).mp h3 with
    | pduRange hi => exact List.mem_append_left [Instr.decode, .crcbuf] hi
    | frameRange hi => exact List.mem_append_right [Instr.sealPdu, .encode, .validate] hi
  · cases hd : decode w with
    | command i =>
      have hi : exec i s = .next t := (execWord_of_command hd s).symm.trans h
      have hle := errcode_toNat_le_three hi
      have h4 : t.errcode ≠ 4 := fun h4 => nomatch (errcode_eq_errCode_iff (e := .illegalCommand) hi).mp h4
      exact ⟨iff_of_false h4 (by simp), by omega⟩
    | illegal why =>
      obtain rfl := Host.Outcome.next.inj ((execWord_of_illegal hd s).symm.trans h)
      exact ⟨iff_of_true rfl ⟨why, rfl⟩, show (4 : Byte).toNat ≤ 4 by decide⟩

/-! ### The causes of each code -/

/-- Settles O22: the one cause of `MalformedPdu`. -/
theorem decodeRejectsMalformedFrames : Obligations.DecodeRejectsMalformedFrames := by
  refine ⟨fun s hr hm => exec_of_failure (.malformed hr hm), fun i s t h h1 => ?_⟩
  cases (errcode_eq_errCode_iff (e := .malformedPdu) h).mp h1 with
  | malformed _ hm => exact ⟨rfl, hm⟩

/-- Settles O23: the one cause of `ChecksumMismatch`. -/
theorem mismatchIsRaisedByValidateOnly : Obligations.MismatchIsRaisedByValidateOnly := by
  intro i s t h
  have hcause := errcode_eq_errCode_iff (e := .checksumMismatch) h
  refine ⟨⟨fun h2 => ?_, ?_⟩, fun h2 => ?_⟩
  · cases hcause.mp h2 with
    | mismatch h0 hr hc => exact ⟨rfl, h0, hr, hc⟩
  · rintro ⟨rfl, h0, hr, hc⟩
    exact hcause.mpr (.mismatch h0 hr hc)
  · exact Host.Outcome.next.inj (h.symm.trans (exec_of_failure (hcause.mp h2)))

/-- Settles O24: the two causes of `LengthRange`. -/
theorem lengthRangeRefusesLongLengths : Obligations.LengthRangeRefusesLongLengths := by
  refine ⟨?_, fun i s t h h3 => ?_⟩
  · rintro i s (⟨hi, hr⟩ | ⟨hi, hr⟩)
    · exact exec_of_failure (.pduRange hi hr)
    · exact exec_of_failure (.frameRange hi hr)
  · cases (errcode_eq_errCode_iff (e := .lengthRange) h).mp h3 with
    | pduRange hi hr => exact .inl ⟨hi, hr⟩
    | frameRange hi hr => exact .inr ⟨hi, hr⟩

/-- Settles O25: each cause holds whatever the tests after it would say, and `VALIDATE` of an empty PDU ends before
the range check. -/
theorem errorPriority : Obligations.ErrorPriority := by
  refine ⟨fun w why s t hd h => ?_, fun s t hr h => (errcode_eq_errCode_iff h).mpr (.frameRange (by simp) hr),
    fun s t hr h12 h => (errcode_eq_errCode_iff h).mpr (.malformed hr (.inl h12)),
    fun s t hr _ hl h => (errcode_eq_errCode_iff h).mpr (.malformed hr (.inr hl)),
    fun i s t hi hr h => (errcode_eq_errCode_iff h).mpr (.pduRange hi hr),
    fun s t hr h => (errcode_eq_errCode_iff h).mpr (.frameRange (by simp) hr), fun s t h0 h => ?_,
    fun s t h0 hr hc h => (errcode_eq_errCode_iff h).mpr (.mismatch h0 hr hc)⟩
  · obtain rfl := Host.Outcome.next.inj ((execWord_of_illegal hd s).symm.trans h)
    rfl
  · obtain rfl := Host.Outcome.next.inj ((exec_of_completion (.validateEmpty h0)).symm.trans h)
    exact ⟨rfl, rfl⟩

end Sys2Proof.Machine
end

section
/-! PROOFS. O28, O40, O45, O54 (70_reset_and_hazards.md R160, R162, R167, R171, R173): the one CRC register, the progress
of a pending command, the reset step, and the frame whose length bytes are zero. -/

namespace Sys2Proof.Machine

/-! ### The CRC register is shared -/

/-- Two states that can end command `i` in the same state answer it alike. -/
theorem exec_eq_of_completion {i : Instr} {s s' t : State} (hs : Completion s i t) (hs' : Completion s' i t) :
    exec i s = exec i s' :=
  (exec_of_completion hs).trans (exec_of_completion hs').symm

/-- Settles O28: the commands of the first clause do not read `CRC`, so with another value in it they end in the same
state; those of the second clause do not write it. -/
theorem checksumCommandsOverwriteCrc : Obligations.ChecksumCommandsOverwriteCrc := by
  refine ⟨fun i s c hi => ?_, fun i s t hi h => (completion_of_exec h).keeps_crc ?_⟩
  · rcases hi with rfl | ⟨rfl, hr⟩ | ⟨rfl, hr⟩ | ⟨rfl, h0, hr⟩
    · exact exec_eq_of_completion .clr .clr
    · exact exec_eq_of_completion (.crcbuf hr) (.crcbuf hr)
    · exact exec_eq_of_completion (.sealPdu hr) (.sealPdu hr)
    · by_cases hc : pduChecksum s = s.csum
      · exact exec_eq_of_completion (.validate h0 hr hc) (.validate h0 hr hc)
      · exact exec_eq_of_completion (.validateMismatch h0 hr hc) (.validateMismatch h0 hr hc)
  · simp only [List.mem_cons, List.not_mem_nil, or_false] at hi ⊢
    tauto

/-! ### A pending command makes progress -/

theorem Event.cases_of_ne_reset {e : Event} (he : e ≠ .reset) : e.isHostAccess = true ∨ e = .blockTurn := by
  cases e with
  | hostRead space index => exact .inl rfl
  | hostWrite space index v => exact .inl rfl
  | blockTurn => exact .inr rfl
  | reset => exact absurd rfl he

/-- The block's turn completes whatever word is pending (42_control.md R130, R131). -/
theorem runSteps_one_completes {s : State} {rest : List Event} (hm : s.BlockMoves rest) (hb : s.busy = true) :
    ∃ t, runSteps 1 s = .next t ∧ t.busy = false ∧ t.done = true := by
  obtain ⟨t, ht⟩ := execWord_next s.pend { s with script := rest }
  exact ⟨t, runSteps_succ (k := 0) ((step_of_pending hm hb).trans ht), execWord_ends ht⟩

/-- A host access leaves the command pending and the script one event shorter; the block's turn completes the command. -/
theorem runSteps_completes {s : State} {script : List Event} (hb : s.busy = true)
    (hreset : ∀ e ∈ script, e ≠ .reset) (hs : s.script = script) :
    ∃ k t, k ≤ script.length + 1 ∧ runSteps k s = .next t ∧ t.busy = false ∧ t.done = true := by
  induction script generalizing s with
  | nil =>
    obtain ⟨t, ht⟩ := runSteps_one_completes (.inr ⟨hs, rfl⟩) hb
    exact ⟨1, t, le_rfl, ht⟩
  | cons e es ih =>
    obtain ⟨he, hes⟩ := List.forall_mem_cons.mp hreset
    rcases Event.cases_of_ne_reset he with haccess | rfl
    · obtain ⟨u, hstep, hu, hsu⟩ := step_hostAccess hb haccess hs
      obtain ⟨k, t, hk, hrun, hend⟩ := ih (hsu.busy.trans hb) hes hu
      exact ⟨k + 1, t, Nat.succ_le_succ hk, (runSteps_succ hstep).trans hrun, hend⟩
    · obtain ⟨t, ht⟩ := runSteps_one_completes (.inl hs) hb
      exact ⟨1, t, Nat.le_add_left 1 _, ht⟩

/-- Settles O40: `runSteps_completes` for the script the state holds. -/
theorem everyIssuedCommandCompletes : Obligations.EveryIssuedCommandCompletes :=
  fun _ hb hreset => runSteps_completes hb hreset rfl

/-! ### Reset -/

/-- Settles O45: the reset step is `applyReset`, and every other step keeps a set `HSFAULT` (10_state.md R24). -/
theorem resetStepFromAnyState : Obligations.ResetStepFromAnyState := by
  refine ⟨fun s rest hs => ⟨_, step_of_cons hs⟩, fun s t h hf hclear => ?_⟩
  by_contra hreset
  have hkept : t.hsfault = true := handshakeFaultIsSticky.1 s t h hf fun rest hs => hreset ⟨rest, hs⟩
  exact absurd hkept (Bool.eq_false_iff.mp hclear)

/-! ### A frame whose length bytes are zero -/

/-- Two zero bytes are the number zero in either byte order. -/
theorem declaredLength_eq_zero {s : State} (h8 : Memory.get s.frm 8 = 0) (h9 : Memory.get s.frm 9 = 0) :
    declaredLength s = 0 := by
  have hbytes : memRead s.frm 8 2 = [0, 0] := by simp only [memRead, h8, h9]
  rw [declaredLength, hbytes]
  cases s.cfg.endian <;> rfl

/-- A frame that declares no payload loads an empty PDU and does not write `PAY` (40_codec.md R84). -/
theorem decoded_empty {s : State} (h : declaredLength s = 0) : (decoded s).len = 0 ∧ (decoded s).pay = s.pay := by
  refine ⟨BitVec.eq_of_toNat_eq ((framePdu_len s).trans h), ?_⟩
  change memWrite s.pay 0 (memRead s.frm 10 (declaredLength s)) = s.pay
  rw [h]
  rfl

/-- Settles O54: the bytes after the trailer of the empty PDU make the frame a long one, and an empty PDU is valid whatever
its checksum. -/
theorem zeroedLengthIsAcceptedAsEmpty : Obligations.ZeroedLengthIsAcceptedAsEmpty := by
  intro s h12 hr h8 h9
  have h0 : declaredLength s = 0 := declaredLength_eq_zero h8 h9
  obtain ⟨hlen, hpay⟩ := decoded_empty h0
  have htrail : (decoded s).trail = true := decide_eq_true (by omega)
  exact ⟨decoded s, _, exec_of_completion (.decode hr (by omega) (by omega)), rfl, hlen, htrail, hpay,
    exec_of_completion (.validateEmpty hlen), rfl, rfl, rfl, rfl⟩

end Sys2Proof.Machine
end

section
/-! PROOFS. O46 (log entry 13): the list of a canonical memory is determined by what every index reads. -/

namespace Sys2Proof.Machine

@[simp] theorem Memory.get_head (c : Host.Cell) (m : Memory) : Memory.get (c :: m) c.1 = c.2 := if_pos rfl

/-- No index below the first listed one holds a byte of its own. -/
theorem Memory.head_le_of_get_ne {d : Host.Cell} {m : Memory} (hm : Memory.wf (d :: m) = true) {i : Nat}
    (h : Memory.get (d :: m) i ≠ Memory.unlisted) : d.1 ≤ i := by
  by_contra hlt
  obtain ⟨-, habove, -⟩ := Memory.wf_cons.mp hm
  have htail : Memory.get m i = Memory.unlisted := Memory.get_of_above habove (by omega)
  exact h ((if_neg (by omega)).trans htail)

/-- The tail of a canonical memory reads as the whole of it, except at the index of the first entry. -/
theorem Memory.get_tail {c : Host.Cell} {m : Memory} (hm : Memory.wf (c :: m) = true) (a : Nat) :
    Memory.get m a = if c.1 = a then Memory.unlisted else Memory.get (c :: m) a := by
  obtain ⟨-, habove, -⟩ := Memory.wf_cons.mp hm
  split
  · rename_i ha
    exact Memory.get_of_above habove ha.ge
  · rename_i ha
    exact (if_neg ha).symm

/-- A canonical memory with an entry does not read as the empty one. -/
theorem Memory.not_get_eq_nil {c : Host.Cell} {m : Memory} (hm : Memory.wf (c :: m) = true) :
    ¬ ∀ a, Memory.get (c :: m) a = Memory.get [] a := fun h =>
  (Memory.wf_cons.mp hm).1 ((Memory.get_head c m).symm.trans (h c.1))

/-- Canonical memories that read alike begin with the same entry: each has a byte at its first index, so neither of the two
indices is below the other. -/
theorem Memory.head_eq_of_get_eq {c d : Host.Cell} {m m' : Memory} (hm : Memory.wf (c :: m) = true)
    (hm' : Memory.wf (d :: m') = true) (h : ∀ a, Memory.get (c :: m) a = Memory.get (d :: m') a) : c = d := by
  obtain ⟨hc, -, -⟩ := Memory.wf_cons.mp hm
  obtain ⟨hd, -, -⟩ := Memory.wf_cons.mp hm'
  have hdc : d.1 ≤ c.1 := Memory.head_le_of_get_ne hm' (by rwa [← h, Memory.get_head])
  have hcd : c.1 ≤ d.1 := Memory.head_le_of_get_ne hm (by rwa [h, Memory.get_head])
  have hindex : c.1 = d.1 := le_antisymm hcd hdc
  refine Prod.ext hindex ?_
  calc c.2 = Memory.get (d :: m') c.1 := by rw [← h, Memory.get_head]
    _ = d.2 := by rw [hindex, Memory.get_head]

/-- Settles O46, by induction on the entries: the first entries agree, and so do the reads of the tails. -/
theorem equalContentsAreEqualData : Obligations.EqualContentsAreEqualData := by
  intro m
  induction m with
  | nil =>
    intro m' _ hm' h
    cases m' with
    | nil => rfl
    | cons d m' => exact absurd (fun a => (h a).symm) (Memory.not_get_eq_nil hm')
  | cons c m ih =>
    intro m' hm hm' h
    cases m' with
    | nil => exact absurd h (Memory.not_get_eq_nil hm)
    | cons d m' =>
      obtain rfl : c = d := Memory.head_eq_of_get_eq hm hm' h
      have htails (a : Nat) : Memory.get m a = Memory.get m' a := by
        rw [Memory.get_tail hm, Memory.get_tail hm', h]
      obtain ⟨-, -, hw⟩ := Memory.wf_cons.mp hm
      obtain ⟨-, -, hw'⟩ := Memory.wf_cons.mp hm'
      rw [ih m' hw hw' htails]

end Sys2Proof.Machine
end
